-- ==== Sys2Proof/Word.lean ====
section
/-! DEFINITION. The register word: 64 bits, unsigned (00_scope.md R7, R9; 10_state.md R20). `+` and `-` on it are
`+_64` and `-_64` of R9: addition and subtraction modulo 2^64. -/

namespace Sys2Proof

/-- A register value, "an unsigned 64-bit word" (10_state.md R20). -/
abbrev Word := BitVec 64

end Sys2Proof
end

