-- ==== Sys2Proof/Config.lean ====
section
/-! DEFINITION. What the source leaves to an implementation (00_scope.md R8), with the spec's defaults. The parameters are
held in State, so a theorem about every state holds for every value of them; only State.reset uses the defaults. -/

namespace Sys2Proof

/-- SUB_ORDER (00_scope.md R8; 92_eei_decisions.md D3): which operand `Sub` subtracts from which. -/
inductive SubOrder where
  /-- `src1 - src2`, the spec's default. -/
  | src1MinusSrc2
  /-- `src2 - src1`. -/
  | src2MinusSrc1
  deriving DecidableEq, Repr

/-- The open parameters of 00_scope.md R8 that are not part of the predictor list. Fixed for a run. -/
structure Params where
  /-- SUB_ORDER. -/
  subOrder : SubOrder
  /-- IMM_MIN, the least immediate a program may hold. -/
  immMin : Int
  /-- IMM_MAX, the greatest immediate a program may hold. -/
  immMax : Int
  deriving DecidableEq, Repr

namespace Config

/-- NREGS, the number of general-purpose registers (00_scope.md R7). -/
def numRegs : Nat := 32

/-- The spec's defaults (00_scope.md R8). PRESUMED for SUB_ORDER (log entry 5), DESIGN CHOICE for the immediate range
(log entry 6); unsafe where the implementation differs. -/
def defaultParams : Params :=
  { subOrder := .src1MinusSrc2, immMin := -2147483648, immMax := 2147483647 }

/-- The default PRED_ID strings (44_predictors.md R182). DESIGN CHOICE (log entry 7). -/
def idAlwaysTaken : String := "AlwaysTaken"
/-- The default identity of NeverTaken (R182). -/
def idNeverTaken : String := "NeverTaken"
/-- The default identity of ForwardTaken (R182). -/
def idForwardTaken : String := "ForwardTaken"
/-- The default identity of BackwardTaken (R182). -/
def idBackwardTaken : String := "BackwardTaken"
/-- The default identity of the 1-bit counter (R182). -/
def idOneBit : String := "OneBitCounter"
/-- The default identity of the 2-bit counter (R182). -/
def idTwoBit : String := "TwoBitCounter"

end Config

end Sys2Proof
end

