-- ==== Sys2Proof/Syntax.lean ====
section
/-! DEFINITION. The closed set of eight instruction terms (30_encoding.md R70, R71): one constructor per row of
spec/opcode_table.json, with the typed operand fields in the order of R83. -/

namespace Sys2Proof

/-- An instruction term (30_encoding.md R70). A register operand is a natural number (an index of 32 or more can be
written and is refused, R71, R79); an immediate is a signed integer (R71); a label is a string (R71). -/
inductive Instr where
  /-- `Add(dst, src1, src2)`, 41_arithmetic.md R130. -/
  | add (dst src1 src2 : Nat)
  /-- `Sub(dst, src1, src2)`, 41_arithmetic.md R135. -/
  | sub (dst src1 src2 : Nat)
  /-- `AddImmediate(dst, src, imm)`, 41_arithmetic.md R140. -/
  | addi (dst src : Nat) (imm : Int)
  /-- `Jump(label)`, 42_control_transfer.md R151. -/
  | j (target : String)
  /-- `BranchIfGE(src1, src2, label)`, 42_control_transfer.md R155. -/
  | bge (src1 src2 : Nat) (target : String)
  /-- `BranchIfNE(src1, src2, label)`, 42_control_transfer.md R160. -/
  | bne (src1 src2 : Nat) (target : String)
  /-- `Finish`, 43_finish_and_label.md R170. -/
  | finish
  /-- `Label(name)`, 43_finish_and_label.md R175. -/
  | label (name : String)
  deriving DecidableEq, Repr

/-- The register operands of a term, in the order the fields stand (10_state.md R24). -/
def Instr.registers : Instr → List Nat
  | .add d a b => [d, a, b]
  | .sub d a b => [d, a, b]
  | .addi d a _ => [d, a]
  | .j _ => []
  | .bge a b _ => [a, b]
  | .bne a b _ => [a, b]
  | .finish => []
  | .label _ => []

/-- The immediate operands of a term: only `AddImmediate` has one (30_encoding.md R75). -/
def Instr.immediates : Instr → List Int
  | .add _ _ _ => []
  | .sub _ _ _ => []
  | .addi _ _ k => [k]
  | .j _ => []
  | .bge _ _ _ => []
  | .bne _ _ _ => []
  | .finish => []
  | .label _ => []

/-- The name a term declares: only `Label` declares one (30_encoding.md R86). -/
def Instr.declares : Instr → List String
  | .add _ _ _ => []
  | .sub _ _ _ => []
  | .addi _ _ _ => []
  | .j _ => []
  | .bge _ _ _ => []
  | .bne _ _ _ => []
  | .finish => []
  | .label n => [n]

/-- The label a term refers to (30_encoding.md R76). -/
def Instr.refersTo : Instr → List String
  | .add _ _ _ => []
  | .sub _ _ _ => []
  | .addi _ _ _ => []
  | .j l => [l]
  | .bge _ _ l => [l]
  | .bne _ _ l => [l]
  | .finish => []
  | .label _ => []

/-- Whether a term is a conditional branch (00_scope.md R13): the two terms at which predictors are queried. -/
def Instr.isBranch : Instr → Bool
  | .add _ _ _ => false
  | .sub _ _ _ => false
  | .addi _ _ _ => false
  | .j _ => false
  | .bge _ _ _ => true
  | .bne _ _ _ => true
  | .finish => false
  | .label _ => false

/-- The names a program declares, in order. -/
def declaredNames (prog : List Instr) : List String := prog.flatMap Instr.declares

end Sys2Proof
end

