-- ==== Sys2Proof/WellFormed.lean ====
section
/-! DEFINITION. Which terms and programs are admitted (60_exceptions.md R231 to R233), as decidable predicates. An
undeclared label reference is NOT ill-formed (30_encoding.md R76, R235), nor is an empty program. -/

namespace Sys2Proof

/-- Every register operand is below 32 (60_exceptions.md R232). -/
abbrev Instr.RegistersInRange (i : Instr) : Prop := ∀ r ∈ i.registers, r < Config.numRegs

/-- Every immediate lies in IMM_MIN .. IMM_MAX (60_exceptions.md R233). -/
abbrev Instr.ImmediatesInRange (p : Params) (i : Instr) : Prop := ∀ k ∈ i.immediates, p.immMin ≤ k ∧ k ≤ p.immMax

/-- A well-formed term: its operands are in the domains of 30_encoding.md R71 as R232 and R233 admit them. -/
abbrev Instr.WellFormed (p : Params) (i : Instr) : Prop := i.RegistersInRange ∧ i.ImmediatesInRange p

/-- An admitted program: every term well-formed, and no name declared twice (60_exceptions.md R231 to R233). -/
abbrev ProgramWellFormed (p : Params) (prog : List Instr) : Prop :=
  (∀ i ∈ prog, i.WellFormed p) ∧ (declaredNames prog).Nodup

end Sys2Proof
end

