-- ==== Sys2Proof/Decode.lean ====
section
/-! DEFINITION. Decoding and encoding (30_encoding.md). The source has no binary encoding (R70, R74): "a term is the tag
plus its typed operand fields" (opcode_table.json), and "a decoder for a model is the map from text lines to terms"
(30_encoding.md, opening). Both are here: `decode` reads a tag and operand fields, `decodeChars` reads a text line through
it, and `encode` and `lineOf` go the other way. Everything is total and refuses by name. -/

namespace Sys2Proof

/-! ### Tag and operand fields (R72, R74, R83) -/

/-- An operand field (30_encoding.md R71); in text, an operand token (R88). -/
inductive Operand where
  /-- A register index. -/
  | reg (n : Nat)
  /-- A signed integer immediate. -/
  | imm (k : Int)
  /-- A label reference, or the name of a `Label`. -/
  | name (s : String)
  deriving DecidableEq, Repr

/-- The kinds of operand field: the shape letters `r`, `imm`, `label` of 30_encoding.md R72. -/
inductive Kind where
  | reg
  | imm
  | name
  deriving DecidableEq, Repr

/-- The kind of an operand field. -/
def Operand.kind : Operand → Kind
  | .reg _ => .reg
  | .imm _ => .imm
  | .name _ => .name

/-- The field of each kind whose bits are all zero: `x0`, the immediate 0, the empty string. DESIGN CHOICE (log entry 19). -/
def Kind.zero : Kind → Operand
  | .reg => .reg 0
  | .imm => .imm 0
  | .name => .name ""

/-- A term as the opcode table lays it out: the 3-bit tag and the operand fields in order (30_encoding.md R83). -/
structure Encoded where
  tag : BitVec 3
  operands : List Operand
  deriving DecidableEq, Repr

/-- Why a line, or a tag with operand fields, is no instruction (60_exceptions.md R230). -/
inductive DecodeError where
  /-- The operands are not of the shape R72 gives the variant (R78). -/
  | badShape (tag : BitVec 3)
  /-- The opcode token is not one of the seven of R89 (R78, R92). -/
  | unknownOpcode (opcode : String)
  /-- White space at an end of an instruction line, or a line of nothing else (R92). -/
  | strayWhitespace
  /-- A label line whose name is empty or holds white space, a comma or a colon (R92). -/
  | badLabelName (name : String)
  /-- An operand token that is no register, no immediate and no label name (R92); the empty token is one. -/
  | badOperand (token : String)
  deriving DecidableEq, Repr

/-- The operand shape of each tag (30_encoding.md R72, R74). -/
def shapeOf (tag : BitVec 3) : List Kind :=
  match tag with
  | 0b000#3 => [.reg, .reg, .reg]
  | 0b001#3 => [.reg, .reg, .reg]
  | 0b010#3 => [.reg, .reg, .imm]
  | 0b011#3 => [.name]
  | 0b100#3 => [.reg, .reg, .name]
  | 0b101#3 => [.reg, .reg, .name]
  | 0b110#3 => []
  | 0b111#3 => [.name]

/-- The decoder over a tag and its operand fields (30_encoding.md R72, R74, R83): any other shape is refused (R78). -/
def decode (e : Encoded) : Except DecodeError Instr :=
  match e.tag, e.operands with
  | 0b000#3, [.reg d, .reg a, .reg b] => .ok (.add d a b)
  | 0b001#3, [.reg d, .reg a, .reg b] => .ok (.sub d a b)
  | 0b010#3, [.reg d, .reg a, .imm k] => .ok (.addi d a k)
  | 0b011#3, [.name l] => .ok (.j l)
  | 0b100#3, [.reg a, .reg b, .name l] => .ok (.bge a b l)
  | 0b101#3, [.reg a, .reg b, .name l] => .ok (.bne a b l)
  | 0b110#3, [] => .ok .finish
  | 0b111#3, [.name n] => .ok (.label n)
  | t, _ => .error (.badShape t)

/-- The encoder: the tag and operand fields of a term (30_encoding.md R74, R83). -/
def encode : Instr → Encoded
  | .add d a b => ⟨0b000#3, [.reg d, .reg a, .reg b]⟩
  | .sub d a b => ⟨0b001#3, [.reg d, .reg a, .reg b]⟩
  | .addi d a k => ⟨0b010#3, [.reg d, .reg a, .imm k]⟩
  | .j l => ⟨0b011#3, [.name l]⟩
  | .bge a b l => ⟨0b100#3, [.reg a, .reg b, .name l]⟩
  | .bne a b l => ⟨0b101#3, [.reg a, .reg b, .name l]⟩
  | .finish => ⟨0b110#3, []⟩
  | .label n => ⟨0b111#3, [.name n]⟩

/-- The instruction the decoder reads from an opcode-table word: the tag is the word's low three bits, as the table's mask
`0b111` says, and the operand fields, to which the table gives no bits, are zero. A word of fewer than three bits has no
whole tag and is refused. DESIGN CHOICE (log entry 19): the hardware has no such word. -/
def decodeTableWord (nbits w : Nat) : Option Instr :=
  if nbits < 3 then none
  else (decode ⟨BitVec.ofNat 3 w, (shapeOf (BitVec.ofNat 3 w)).map Kind.zero⟩).toOption

/-! ### Text (R85 to R92) -/

/-- The characters that are trimmed: "spaces and tabs" (30_encoding.md R92). -/
def isBlank (c : Char) : Bool := c = ' ' || c = '\t'

/-- White space, which no label name may hold and no instruction line may begin or end with (R92). The rule does not list
the characters: PRESUMED, the Unicode White_Space property (log entry 16). -/
def isSpace (c : Char) : Bool :=
  (9 ≤ c.toNat && c.toNat ≤ 13) || (0x2000 ≤ c.toNat && c.toNat ≤ 0x200A) ||
    [0x20, 0x85, 0xA0, 0x1680, 0x2028, 0x2029, 0x202F, 0x205F, 0x3000].contains c.toNat

/-- Text without the spaces and tabs at its two ends (R86, R92). -/
def trim (cs : List Char) : List Char := ((cs.dropWhile isBlank).reverse.dropWhile isBlank).reverse

/-- The label-name rule of R92: not empty, no white space, no comma, no colon. -/
def isLabelName (cs : List Char) : Bool := !cs.isEmpty && cs.all fun c => !isSpace c && c != ',' && c != ':'

/-- A decimal number with no leading zero, or `0` (R92). -/
def parseNat (cs : List Char) : Option Nat :=
  match cs with
  | [] => none
  | c :: rest =>
    if (c = '0' && !rest.isEmpty) || !(cs.all Char.isDigit) then none else some (Nat.ofDigitChars 10 cs 0)

/-- A register token: `x` and a decimal number (R88, R92). -/
def parseReg (cs : List Char) : Option Nat :=
  match cs with
  | 'x' :: rest => parseNat rest
  | _ => none

/-- A signed decimal integer: a decimal number, or `-` and a decimal number other than 0 (R88, R92). -/
def parseInt (cs : List Char) : Option Int :=
  match cs with
  | '-' :: rest =>
    match parseNat rest with
    | some n => if n = 0 then none else some (-(n : Int))
    | none => none
  | _ => (parseNat cs).map fun n => (n : Int)

/-- An immediate token: a signed decimal integer "in `IMM_MIN .. IMM_MAX`" (R92; log entry 17). -/
def parseImm (p : Params) (cs : List Char) : Option Int :=
  (parseInt cs).filter fun k => decide (p.immMin ≤ k ∧ k ≤ p.immMax)

/-- An operand token, tried as a register, then as an immediate, then as a label reference (R88, R92: "Any other
token"). -/
def parseOperand (p : Params) (cs : List Char) : Except DecodeError Operand :=
  match parseReg cs with
  | some n => .ok (.reg n)
  | none =>
    match parseImm p cs with
    | some k => .ok (.imm k)
    | none => if isLabelName cs then .ok (.name (String.ofList cs)) else .error (.badOperand (String.ofList cs))

/-- All the operand tokens of a line, the first error reported. -/
def parseOperands (p : Params) : List (List Char) → Except DecodeError (List Operand)
  | [] => .ok []
  | t :: ts =>
    match parseOperand p (trim t) with
    | .error e => .error e
    | .ok o =>
      match parseOperands p ts with
      | .error e => .error e
      | .ok os => .ok (o :: os)

/-- The seven opcode tokens and their tags (30_encoding.md R74, R89). -/
def opcodes : List (String × BitVec 3) :=
  [("add", 0b000#3), ("sub", 0b001#3), ("addi", 0b010#3), ("j", 0b011#3), ("bge", 0b100#3), ("bne", 0b101#3),
    ("finish", 0b110#3)]

/-- An instruction line (R87, R92): the opcode is the text up to the first space, or the whole line; the rest is split at
commas. -/
def decodeInstrLine (p : Params) (cs : List Char) : Except DecodeError Instr :=
  let opcode := String.ofList (cs.takeWhile (· != ' '))
  match opcodes.lookup opcode with
  | none => .error (.unknownOpcode opcode)
  | some tag =>
    match cs.dropWhile (· != ' ') with
    | [] => decode ⟨tag, []⟩
    | _ :: rest =>
      match parseOperands p (rest.splitOn ',') with
      | .error e => .error e
      | .ok os => decode ⟨tag, os⟩

/-- The text decoder over one line (R85 to R92): nothing for a blank line, an instruction, or a named refusal. -/
def decodeChars (p : Params) (cs : List Char) : Except DecodeError (Option Instr) :=
  if cs = [] then .ok none
  else if (trim cs).getLast? = some ':' then
    let name := (trim cs).dropLast
    if isLabelName name then (decode ⟨0b111#3, [.name (String.ofList name)]⟩).map some
    else .error (.badLabelName (String.ofList name))
  else if (cs.head?.any isSpace) || (cs.getLast?.any isSpace) then .error .strayWhitespace
  else (decodeInstrLine p cs).map some

/-- `decodeChars` on a string. -/
def decodeLine (p : Params) (line : String) : Except DecodeError (Option Instr) := decodeChars p line.toList

/-- The terms of a list of lines, in line order, blank lines skipped (R85, R91); a refused line refuses the program (R92)
and is reported with its number. -/
def decodeLines (p : Params) : List (List Char) → Nat → Except (Nat × DecodeError) (List Instr)
  | [], _ => .ok []
  | l :: ls, n =>
    match decodeChars p l with
    | .error e => .error (n, e)
    | .ok i =>
      match decodeLines p ls (n + 1) with
      | .error e => .error e
      | .ok is => .ok (i.toList ++ is)

/-- The program decoder: lines are separated by line feeds and numbered from 1 (R85; log entry 16). -/
def decodeProgram (p : Params) (text : String) : Except (Nat × DecodeError) (List Instr) :=
  decodeLines p (text.toList.splitOn '\n') 1

/-! ### The text encoder -/

/-- An operand token (R88, R89, R92). -/
def Operand.text : Operand → List Char
  | .reg n => 'x' :: Nat.toDigits 10 n
  | .imm k => if k < 0 then '-' :: Nat.toDigits 10 k.natAbs else Nat.toDigits 10 k.natAbs
  | .name s => s.toList

/-- The operands of a line, a comma and a space between two. -/
def operandText : List Operand → List Char
  | [] => []
  | o :: os => [','].intercalate (o.text :: os.map fun p => ' ' :: p.text)

/-- The opcode token of a tag (R89); the `Label` tag has none. -/
def opcodeText (tag : BitVec 3) : List Char :=
  match opcodes.find? fun p => p.2 = tag with
  | some p => p.1.toList
  | none => []

/-- The text of a tag and its operand fields: `name:` for a label, else the opcode and the operands (R86, R87). -/
def lineOf (e : Encoded) : List Char :=
  if e.tag = 0b111#3 then operandText e.operands ++ [':']
  else if e.operands = [] then opcodeText e.tag
  else opcodeText e.tag ++ ' ' :: operandText e.operands

/-- The line of program text that stands for a term (R89). -/
def encodeLine (i : Instr) : String := String.ofList (lineOf (encode i))

/-- Whether text can spell a term (R80, R92): its immediates are in range, a declared name is a label name, and a referenced
name is a label name that is no register token and no immediate token. -/
def Instr.spellable (p : Params) (i : Instr) : Bool :=
  (i.immediates.all fun k => decide (p.immMin ≤ k ∧ k ≤ p.immMax)) &&
    (i.declares.all fun n => isLabelName n.toList) &&
    i.refersTo.all fun n => isLabelName n.toList && (parseReg n.toList).isNone && (parseImm p n.toList).isNone

end Sys2Proof
end

