-- ==== Sys2Proof/Machine/State.lean ====
section
/-! DEFINITION. The machine state, everything the spec gives the machine (10_state.md R40), as plain data; the reasons a
step can stop; and the state after reset (10_state.md R41, 70_reset_and_hazards.md R250). -/

namespace Sys2Proof.Machine

/-- A finite map in canonical form: a list of key and value pairs, keys strictly rising (`TableSorted`, Machine/Table.lean),
so that equal maps are equal lists. -/
abbrev Table (κ ν : Type) := List (κ × ν)

/-- The states of a 1-bit counter (10_state.md R35, R36). -/
inductive OneBit where
  | notTaken
  | taken
  deriving DecidableEq, Repr

/-- The states of a 2-bit counter, "ordered as listed" (10_state.md R35, R36). -/
inductive TwoBit where
  | stronglyNotTaken
  | weaklyNotTaken
  | weaklyTaken
  | stronglyTaken
  deriving DecidableEq, Repr

/-- The closed set of six strategies; the two counters carry their private table, branch site to state
(44_predictors.md R183, 10_state.md R35). -/
inductive Strategy where
  | alwaysTaken
  | neverTaken
  | forwardTaken
  | backwardTaken
  | oneBit (table : Table Nat OneBit)
  | twoBit (table : Table Nat TwoBit)
  deriving DecidableEq, Repr

/-- A registered predictor instance: its identity PRED_ID and its strategy with its own table (40_execution_loop.md R100,
44_predictors.md R182, R203). -/
structure Predictor where
  id : String
  strategy : Strategy
  deriving DecidableEq, Repr

/-- An accuracy record (10_state.md R33). The counts are unbounded natural numbers: the spec's choice D13 (log entry 9). -/
structure Accuracy where
  correct : Nat
  total : Nat
  deriving DecidableEq, Repr

/-- The accuracy table, "mapping from predictor identity to a mapping from branch-site program-counter to its accuracy
record" (10_state.md R33). -/
abbrev AccuracyTable := Table String (Table Nat Accuracy)

/-- A fatal condition of a run and the information recorded with it (60_exceptions.md R220). -/
inductive FaultReport where
  /-- Code 1: the fetch found `pc` at or past the end of the sequence (40_execution_loop.md R102). -/
  | fetchOutOfRange (pc : Nat)
  /-- Code 2: no `Label` carries the referenced name (42_control_transfer.md R150, 60_exceptions.md R221). -/
  | unresolvedLabel (pc : Nat) (name : String)
  /-- Code 3: a register access with an index of 32 or more (10_state.md R23, 60_exceptions.md R222). -/
  | registerIndexOutOfRange (pc index : Nat)
  deriving DecidableEq, Repr

/-- The run status (10_state.md R32). -/
inductive Status where
  | running
  | finished
  | faulted (report : FaultReport)
  deriving DecidableEq, Repr

/-- The hart state as a predictor or the caller sees it: the pc and `x0` to `x31` (00_scope.md R13, 40_execution_loop.md
R106, R112). A view of State, not a field of it. -/
structure Hart where
  pc : Nat
  x : Vector Word 32
  deriving DecidableEq, Repr

/-- The complete machine state (10_state.md R40). `params`, `prog` and the predictors' identities and variants are the
spec's parameters of the step: they are held here because a step takes a state alone, and no step changes them (log entry
2). -/
structure State where
  /-- SUB_ORDER, IMM_MIN, IMM_MAX (00_scope.md R8). -/
  params : Params
  /-- The instruction sequence (20_memory.md R51). -/
  prog : List Instr
  /-- The registered predictors, in registration order (40_execution_loop.md R100). -/
  preds : List Predictor
  /-- The program counter, an unbounded instruction index (10_state.md R25). -/
  pc : Nat
  /-- `x1` to `x31`, register `i` at position `i - 1`: "`x0` has no storage" (10_state.md R40). -/
  regs : Vector Word 31
  /-- The run status (10_state.md R32). -/
  status : Status
  /-- The accuracy table (10_state.md R33). -/
  acc : AccuracyTable
  deriving DecidableEq, Repr

/-- Why no step can be taken. The spec's own fatal conditions are NOT here: they are next states whose status is Faulted
(60_exceptions.md R220; log entry 1). -/
inductive Fault where
  /-- Raised by `step` in a state whose status is Finished: "no step is enabled" (40_execution_loop.md R101). Safe: the
  hardware stops too. -/
  | runFinished
  /-- Raised by `step` in a state whose status is Faulted, with the report that ended the run (40_execution_loop.md R101,
  60_exceptions.md R225). Safe: the hardware stops too. -/
  | runFaulted (report : FaultReport)
  deriving DecidableEq, Repr

/-- Verdicts on the inputs before any step (60_exceptions.md R230 to R235). -/
inductive Refusal where
  /-- Raised by `exec` for an instruction that has no meaning yet; no arm of this model raises it. Safe. -/
  | notModelled (mnemonic : String)
  /-- W1, raised by `State.loadText` for a text that is no program, with the line's number (R230). Safe: the hardware's
  parser may accept more (D22). -/
  | parseError (line : Nat) (reason : DecodeError)
  /-- W2, raised by `step` and by `State.load` for a program that declares a name twice (R231). Safe. -/
  | duplicateLabel (name : String)
  /-- W3, raised by `step` and by `State.load` for a program that names a register of 32 or more (R232). Safe. -/
  | registerIndex (index : Nat)
  /-- W4, raised by `step` and by `State.load` for a program with an immediate out of range (R233). Safe. -/
  | immediateRange (imm : Int)
  /-- W5, raised by `step` and by `State.load` for two predictors of one identity (R234). Safe. -/
  | duplicateIdentity (id : String)
  deriving DecidableEq, Repr

/-- The default PRED_LIST: one instance of each variant in the order of 44_predictors.md R183, named as R182 names them,
with the empty tables of fresh instances (R203, R252). DESIGN CHOICE (log entries 7, 8). -/
def State.defaultPredictors : List Predictor :=
  [⟨Config.idAlwaysTaken, .alwaysTaken⟩, ⟨Config.idNeverTaken, .neverTaken⟩, ⟨Config.idForwardTaken, .forwardTaken⟩,
    ⟨Config.idBackwardTaken, .backwardTaken⟩, ⟨Config.idOneBit, .oneBit []⟩, ⟨Config.idTwoBit, .twoBit []⟩]

/-- The start state of a run on given inputs (70_reset_and_hazards.md R250): the predictors come with their starting tables
PRED_INIT. -/
def State.start (params : Params) (prog : List Instr) (preds : List Predictor) : State :=
  { params := params, prog := prog, preds := preds, pc := 0, regs := Vector.replicate 31 0, status := .running, acc := [] }

/-- The machine right after reset: the start state with the default parameters and predictors, and no program, which the
caller supplies (R250, R253; log entry 3). -/
def State.reset : State := State.start Config.defaultParams [] State.defaultPredictors

end Sys2Proof.Machine
end

