-- ==== Sys2Proof/Machine/Admit.lean ====
section
/-! DEFINITION. Admission: the verdict on a program and a predictor list before any step (60_exceptions.md R231 to R235).
Which of several refusals is reported is not said: W2, W3, W4, W5 in that order, DESIGN CHOICE (log entry 4). -/

namespace Sys2Proof.Machine

/-- The first member of a list that occurs again later. -/
def firstRepeat {α : Type} [DecidableEq α] : List α → Option α
  | [] => none
  | a :: rest => if a ∈ rest then some a else firstRepeat rest

/-- W2 (60_exceptions.md R231): a name declared twice. -/
def labelRefusal (prog : List Instr) : Option Refusal := (firstRepeat (declaredNames prog)).map Refusal.duplicateLabel

/-- W3 (60_exceptions.md R232): a register operand of 32 or more, "whether or not that instruction would execute". -/
def registerRefusal (prog : List Instr) : Option Refusal :=
  ((prog.flatMap Instr.registers).find? fun r => decide (Config.numRegs ≤ r)).map Refusal.registerIndex

/-- W4 (60_exceptions.md R233): an immediate outside IMM_MIN .. IMM_MAX. -/
def immediateRefusal (p : Params) (prog : List Instr) : Option Refusal :=
  ((prog.flatMap Instr.immediates).find? fun k => !decide (p.immMin ≤ k ∧ k ≤ p.immMax)).map Refusal.immediateRange

/-- W5 (60_exceptions.md R234): two predictors of one identity. -/
def identityRefusal (preds : List Predictor) : Option Refusal :=
  (firstRepeat (preds.map Predictor.id)).map Refusal.duplicateIdentity

/-- The verdict on the inputs a state holds: nothing where they are admitted. -/
def State.refusal (s : State) : Option Refusal :=
  (labelRefusal s.prog).or ((registerRefusal s.prog).or ((immediateRefusal s.params s.prog).or (identityRefusal s.preds)))

end Sys2Proof.Machine
end

