-- ==== Sys2Proof/Machine/Table.lean ====
section
/-! DEFINITION. Reading and writing the machine's finite maps (10_state.md R33, R35). A write keeps the keys strictly
rising, so that tables compare as "the finite partial map" R33 asks for. -/

namespace Sys2Proof.Machine

/-- The value at a key, if the table has one. -/
def tableGet {κ ν : Type} [DecidableEq κ] : Table κ ν → κ → Option ν
  | [], _ => none
  | (k', v) :: rest, k => if k' = k then some v else tableGet rest k

/-- The table with a value put at a key, at the key's place in the order. -/
def tableSet {κ ν : Type} [DecidableEq κ] [LT κ] [DecidableLT κ] : Table κ ν → κ → ν → Table κ ν
  | [], k, v => [(k, v)]
  | (k', v') :: rest, k, v =>
    if k' = k then (k, v) :: rest
    else if k < k' then (k, v) :: (k', v') :: rest
    else (k', v') :: tableSet rest k v

/-- The canonical form: keys strictly rising. -/
abbrev TableSorted {κ ν : Type} [LT κ] (t : Table κ ν) : Prop := t.Pairwise fun a b => a.1 < b.1

end Sys2Proof.Machine
end

