-- ==== Sys2Proof/Machine/Ops.lean ====
section
/-! DEFINITION. The named operations on registers, the pc and the status, and taking a fatal condition. There is no data
memory (20_memory.md R50), and no return from a fault (60_exceptions.md R229). -/

namespace Sys2Proof.Machine

/-- The value register `i` reads as: 0 for `x0`, else the stored word (10_state.md R21). An index of 32 or more names no
register and reads 0 here; instructions read through `readReg`, which faults on it. -/
def State.reg (s : State) (i : Nat) : Word :=
  if i = 0 then 0 else if h : i - 1 < 31 then s.regs[i - 1] else 0

/-- The registers after `x[i] <- v` for an index in range: no effect for `x0` (10_state.md R22). -/
def State.setReg (s : State) (i : Nat) (v : Word) : State :=
  if i = 0 then s else if h : i - 1 < 31 then { s with regs := s.regs.set (i - 1) v } else s

/-- `x[i]`: a read, fatal for an index of 32 or more (10_state.md R21, R22, R23). -/
def readReg (s : State) (i : Nat) : Except FaultReport Word :=
  if Config.numRegs ≤ i then .error (.registerIndexOutOfRange s.pc i) else .ok (s.reg i)

/-- `x[i] <- v`: a write, fatal for an index of 32 or more (10_state.md R22, R23). -/
def writeReg (s : State) (i : Nat) (v : Word) : Except FaultReport State :=
  if Config.numRegs ≤ i then .error (.registerIndexOutOfRange s.pc i) else .ok (s.setReg i v)

/-- `pc <- t`, the hart's `jump_to` (10_state.md R25). -/
def State.jumpTo (s : State) (t : Nat) : State := { s with pc := t }

/-- `pc <- pc + 1`, the hart's `advance` (10_state.md R25, R27). -/
def State.advance (s : State) : State := s.jumpTo (s.pc + 1)

/-- `halt`: the status becomes Finished and nothing else changes (43_finish_and_label.md R170). -/
def State.halt (s : State) : State := { s with status := .finished }

/-- Taking a fatal condition, `raise Fault(code, info)`: the status becomes Faulted and nothing else changes; no register is
saved, no mode changes and the pc goes nowhere (60_exceptions.md R220, R224, R228). -/
def State.raise (s : State) (r : FaultReport) : State := { s with status := .faulted r }

/-- The outcome of an instruction: its effect, or, where a sub-step raised, the fatal condition taken in the state the
instruction began in, "discards everything the step had done" (40_execution_loop.md R104, 60_exceptions.md R224). -/
def conclude (s : State) (r : Except FaultReport State) : Host.Outcome State Fault Refusal :=
  match r with
  | .ok t => .next t
  | .error e => .next (s.raise e)

/-- The fault code of a report (60_exceptions.md R220). The numbers are the spec's (D9, log entry 12). -/
def faultCode : FaultReport → Nat
  | .fetchOutOfRange _ => 1
  | .unresolvedLabel _ _ => 2
  | .registerIndexOutOfRange _ _ => 3

/-- The hart state of a machine state (10_state.md R30, 40_execution_loop.md R106). -/
def State.hart (s : State) : Hart := { pc := s.pc, x := Vector.ofFn fun i => s.reg i.val }

/-- The accuracy record of a predictor identity at a branch site, if there is one (10_state.md R33). -/
def State.record (s : State) (id : String) (site : Nat) : Option Accuracy :=
  match tableGet s.acc id with
  | none => none
  | some sites => tableGet sites site

/-- The state with a fresh program loaded that holds the given instruction at the pc and only `Finish` before it: what the
host's probe loads (log entry 3). The status is Running, so that the next step fetches it. -/
def State.placeInstr (s : State) (i : Instr) : State :=
  { s with prog := List.replicate s.pc .finish ++ [i], status := .running }

end Sys2Proof.Machine
end

