-- ==== Sys2Proof/Machine/Flags.lean ====
section
/-! DEFINITION. "The hardware has no flags, condition codes or predicate registers" (10_state.md R30): no instruction sets
or reads one. What a conditional branch computes instead is its real outcome, a comparison of two register words. -/

namespace Sys2Proof.Machine

/-- The real outcome of `BranchIfGE`: `va >=u vb`, unsigned (42_control_transfer.md R155, R156). -/
def outcomeGE (va vb : Word) : Bool := decide (vb.toNat ≤ va.toNat)

/-- The real outcome of `BranchIfNE`: the words differ in some bit (42_control_transfer.md R160). -/
def outcomeNE (va vb : Word) : Bool := decide (va ≠ vb)

end Sys2Proof.Machine
end

