-- ==== Sys2Proof/Machine/Operands.lean ====
section
/-! DEFINITION. The operand forms: register, immediate and label (30_encoding.md R71, R75, R76). -/

namespace Sys2Proof.Machine

/-- `sext_64(i)`, "that is `i mod 2^64`" (00_scope.md R9, 30_encoding.md R75). -/
def sext64 (i : Int) : Word := BitVec.ofInt 64 i

/-- The scan of 42_control_transfer.md R150 over the positions from `k` on: the first `Label` of exactly that name. -/
def findLabel (name : String) : List Instr → Nat → Option Nat
  | [], _ => none
  | i :: rest, k => if i = .label name then some k else findLabel name rest (k + 1)

/-- `resolve(L)` (42_control_transfer.md R150): the position of the `Label` named `L`, or the fatal condition. -/
def resolve (s : State) (name : String) : Except FaultReport Nat :=
  match findLabel name s.prog 0 with
  | some k => .ok k
  | none => .error (.unresolvedLabel s.pc name)

/-- The two source registers of a form, read in field order (60_exceptions.md R226). -/
def readTwo (s : State) (a b : Nat) : Except FaultReport (Word × Word) :=
  match readReg s a with
  | .error e => .error e
  | .ok va =>
    match readReg s b with
    | .error e => .error e
    | .ok vb => .ok (va, vb)

/-- Write the destination and advance: the end of every arithmetic instruction (41_arithmetic.md R130, R135, R140). -/
def writeAdvance (s : State) (d : Nat) (v : Word) : Except FaultReport State :=
  match writeReg s d v with
  | .error e => .error e
  | .ok t => .ok t.advance

/-- The difference of two words in the order SUB_ORDER names (41_arithmetic.md R135, D3; log entry 5). -/
def subtract (order : SubOrder) (va vb : Word) : Word :=
  match order with
  | .src1MinusSrc2 => va - vb
  | .src2MinusSrc1 => vb - va

end Sys2Proof.Machine
end

