-- ==== Sys2Proof/Machine/Predictors.lean ====
section
/-! DEFINITION. The branch-predictor strategy engines (44_predictors.md). A query predicts from the prior state, compares
with the real outcome, and then updates the instance's own table (R180). -/

namespace Sys2Proof.Machine

/-- The default state of a 1-bit counter at a site it has no entry for (44_predictors.md R195). -/
def oneBitAt (table : Table Nat OneBit) (site : Nat) : OneBit := (tableGet table site).getD .notTaken

/-- The default state of a 2-bit counter at a site it has no entry for (44_predictors.md R200). -/
def twoBitAt (table : Table Nat TwoBit) (site : Nat) : TwoBit := (tableGet table site).getD .stronglyNotTaken

/-- "Prediction = the state itself" (44_predictors.md R195). -/
def predictOneBit : OneBit → Bool
  | .notTaken => false
  | .taken => true

/-- "Update: state becomes exactly the real outcome (no hysteresis)" (44_predictors.md R195). -/
def updateOneBit (outcome : Bool) : OneBit := if outcome then .taken else .notTaken

/-- "Prediction = taken iff state is `WeaklyTaken` or `StronglyTaken`" (44_predictors.md R200). -/
def predictTwoBit : TwoBit → Bool
  | .stronglyNotTaken => false
  | .weaklyNotTaken => false
  | .weaklyTaken => true
  | .stronglyTaken => true

/-- One step toward `StronglyTaken` on a taken outcome, toward `StronglyNotTaken` on a not-taken one, "saturating, no
wraparound past the ends" (44_predictors.md R200). -/
def updateTwoBit (s : TwoBit) (outcome : Bool) : TwoBit :=
  match s, outcome with
  | .stronglyNotTaken, true => .weaklyNotTaken
  | .weaklyNotTaken, true => .weaklyTaken
  | .weaklyTaken, true => .stronglyTaken
  | .stronglyTaken, true => .stronglyTaken
  | .stronglyNotTaken, false => .stronglyNotTaken
  | .weaklyNotTaken, false => .stronglyNotTaken
  | .weaklyTaken, false => .weaklyNotTaken
  | .stronglyTaken, false => .weaklyTaken

/-- The bits of a 1-bit state (10_state.md R36, D15). -/
def oneBitCode : OneBit → BitVec 1
  | .notTaken => 0
  | .taken => 1

/-- The bits of a 2-bit state, in the listed order (10_state.md R36, D15). -/
def twoBitCode : TwoBit → BitVec 2
  | .stronglyNotTaken => 0
  | .weaklyNotTaken => 1
  | .weaklyTaken => 2
  | .stronglyTaken => 3

/-- What a strategy predicts at a branch site with a target (44_predictors.md R185 to R188, R195, R200). -/
def predict (st : Strategy) (site target : Nat) : Bool :=
  match st with
  | .alwaysTaken => true
  | .neverTaken => false
  | .forwardTaken => decide (site < target)
  | .backwardTaken => decide (target < site)
  | .oneBit table => predictOneBit (oneBitAt table site)
  | .twoBit table => predictTwoBit (twoBitAt table site)

/-- A strategy after a real outcome at a site: identity for the stateless variants (44_predictors.md R180). -/
def update (st : Strategy) (site : Nat) (outcome : Bool) : Strategy :=
  match st with
  | .alwaysTaken => .alwaysTaken
  | .neverTaken => .neverTaken
  | .forwardTaken => .forwardTaken
  | .backwardTaken => .backwardTaken
  | .oneBit table => .oneBit (tableSet table site (updateOneBit outcome))
  | .twoBit table => .twoBit (tableSet table site (updateTwoBit (twoBitAt table site) outcome))

/-- `query(p, h, t, o)` (44_predictors.md R180): whether the prediction matched, and the instance after it. -/
def query (p : Predictor) (h : Hart) (target : Nat) (outcome : Bool) : Bool × Predictor :=
  (predict p.strategy h.pc target == outcome, { p with strategy := update p.strategy h.pc outcome })

/-- A record after one more query (40_execution_loop.md R108): a record not yet there counts from zero. -/
def scoreRecord (r : Option Accuracy) (isMatch : Bool) : Accuracy :=
  { correct := (r.map Accuracy.correct).getD 0 + (if isMatch then 1 else 0), total := (r.map Accuracy.total).getD 0 + 1 }

/-- `accumulate(id, site, m)` (40_execution_loop.md R108). -/
def accumulate (acc : AccuracyTable) (id : String) (site : Nat) (isMatch : Bool) : AccuracyTable :=
  tableSet acc id
    (tableSet ((tableGet acc id).getD []) site (scoreRecord (tableGet ((tableGet acc id).getD []) site) isMatch))

/-- The loop of `branch_resolve` (40_execution_loop.md R106, R107): every predictor is queried once, in registration order,
and each match is accumulated. -/
def queryAll (h : Hart) (target : Nat) (outcome : Bool) : List Predictor → AccuracyTable → List Predictor × AccuracyTable
  | [], acc => ([], acc)
  | p :: ps, acc =>
    let q := query p h target outcome
    let rest := queryAll h target outcome ps (accumulate acc p.id h.pc q.1)
    (q.2 :: rest.1, rest.2)

/-- `branch_resolve(t, o)` (40_execution_loop.md R106): query and score every predictor with the hart state before the pc
moves, then move the pc to the target if taken, else advance. -/
def branchResolve (s : State) (target : Nat) (outcome : Bool) : State :=
  let scored := queryAll s.hart target outcome s.preds s.acc
  let t := { s with preds := scored.1, acc := scored.2 }
  if outcome then t.jumpTo target else t.advance

end Sys2Proof.Machine
end

