-- ==== Sys2Proof/Machine/Arith.lean ====
section
/-! DEFINITION. The arithmetic instructions Add, Sub and AddImmediate (41_arithmetic.md). All sources are read before the
destination is written (D23). No flag, trap or saturation: wrap-around is silent (R145). -/

namespace Sys2Proof.Machine

/-- A register-register instruction: read both sources, combine, write, advance (41_arithmetic.md R130, R135). -/
def binaryOp (f : Word → Word → Word) (d a b : Nat) (s : State) : Except FaultReport State :=
  match readTwo s a b with
  | .error e => .error e
  | .ok (va, vb) => writeAdvance s d (f va vb)

/-- `Add(dst, src1, src2)`: `x[dst] <- x[src1] +_64 x[src2]` (41_arithmetic.md R130). -/
def execAdd (d a b : Nat) (s : State) : Host.Outcome State Fault Refusal :=
  conclude s (binaryOp (fun va vb => va + vb) d a b s)

/-- `Sub(dst, src1, src2)`: `x[dst] <- x[src1] -_64 x[src2]`, in the order SUB_ORDER names (41_arithmetic.md R135). -/
def execSub (d a b : Nat) (s : State) : Host.Outcome State Fault Refusal :=
  conclude s (binaryOp (subtract s.params.subOrder) d a b s)

/-- `AddImmediate(dst, src, imm)`: `x[dst] <- x[src] +_64 sext_64(imm)` (41_arithmetic.md R140). -/
def execAddi (d a : Nat) (imm : Int) (s : State) : Host.Outcome State Fault Refusal :=
  conclude s
    (match readReg s a with
    | .error e => .error e
    | .ok va => writeAdvance s d (va + sext64 imm))

end Sys2Proof.Machine
end

