-- ==== Sys2Proof/Machine/Control.lean ====
section
/-! DEFINITION. Control transfer: Jump, BranchIfGE, BranchIfNE (42_control_transfer.md). No delay slot and no link register
(R165). -/

namespace Sys2Proof.Machine

/-- `Jump(label)`: resolve, then `pc <- t`; no predictor is queried (42_control_transfer.md R151). -/
def execJ (target : String) (s : State) : Host.Outcome State Fault Refusal :=
  conclude s
    (match resolve s target with
    | .error e => .error e
    | .ok t => .ok (s.jumpTo t))

/-- A conditional branch: resolve the label, taken or not, read both registers, then the branch-resolve protocol
(40_execution_loop.md R104, R106). -/
def branchOn (outcome : Word → Word → Bool) (a b : Nat) (target : String) (s : State) : Except FaultReport State :=
  match resolve s target with
  | .error e => .error e
  | .ok t =>
    match readTwo s a b with
    | .error e => .error e
    | .ok (va, vb) => .ok (branchResolve s t (outcome va vb))

/-- `BranchIfGE(src1, src2, label)`, unsigned (42_control_transfer.md R155, R156). -/
def execBge (a b : Nat) (target : String) (s : State) : Host.Outcome State Fault Refusal :=
  conclude s (branchOn outcomeGE a b target s)

/-- `BranchIfNE(src1, src2, label)` (42_control_transfer.md R160). -/
def execBne (a b : Nat) (target : String) (s : State) : Host.Outcome State Fault Refusal :=
  conclude s (branchOn outcomeNE a b target s)

end Sys2Proof.Machine
end

