-- ==== Sys2Proof/Machine/System.lean ====
section
/-! DEFINITION. Finish and Label (43_finish_and_label.md). -/

namespace Sys2Proof.Machine

/-- `Finish`: halt, with the pc, the registers and the measurements unchanged (43_finish_and_label.md R170). -/
def execFinish (s : State) : Host.Outcome State Fault Refusal := .next s.halt

/-- `Label(name)`: advance and nothing else (43_finish_and_label.md R175). -/
def execLabel (_name : String) (s : State) : Host.Outcome State Fault Refusal := .next s.advance

end Sys2Proof.Machine
end

