-- ==== Sys2Proof/Machine/Dispatch.lean ====
section
/-! DEFINITION. The dispatch of 40_execution_loop.md R103: total, one arm per constructor. -/

namespace Sys2Proof.Machine

def exec (i : Instr) (s : State) : Host.Outcome State Fault Refusal :=
  match i with
  | .add d a b => Sys2Proof.Machine.execAdd d a b s
  | .sub d a b => Sys2Proof.Machine.execSub d a b s
  | .addi d a k => Sys2Proof.Machine.execAddi d a k s
  | .j l => Sys2Proof.Machine.execJ l s
  | .bge a b l => Sys2Proof.Machine.execBge a b l s
  | .bne a b l => Sys2Proof.Machine.execBne a b l s
  | .finish => Sys2Proof.Machine.execFinish s
  | .label n => Sys2Proof.Machine.execLabel n s

end Sys2Proof.Machine
end

