-- ==== Sys2Proof/Machine/Fetch.lean ====
section
/-! DEFINITION. The fetch (40_execution_loop.md R102): by position, from the immutable sequence. -/

namespace Sys2Proof.Machine

/-- The instruction at the pc, or the fatal condition where the pc is outside the sequence (40_execution_loop.md R102). -/
def fetch (s : State) : Except FaultReport Instr :=
  match s.prog[s.pc]? with
  | some i => .ok i
  | none => .error (.fetchOutOfRange s.pc)

end Sys2Proof.Machine
end

