-- ==== Sys2Proof/Machine/Step.lean ====
section
/-! DEFINITION. The step (40_execution_loop.md R101 to R104), and the host's probe. -/

namespace Sys2Proof.Machine

/-- One step: enabled only while the status is Running (R101); refused where the inputs are not admitted (60_exceptions.md
R230 to R235; the inputs never change, so this is the check "before the first step", log entry 4); else fetch (R102) and
run the instruction (R103, R104). -/
def step (s : State) : Host.Outcome State Fault Refusal :=
  match s.status with
  | .finished => .fault .runFinished
  | .faulted r => .fault (.runFaulted r)
  | .running =>
    match s.refusal with
    | some r => .refused r
    | none =>
      match fetch s with
      | .error e => .next (s.raise e)
      | .ok i => exec i s

/-- The state with the instruction of an opcode-table word where the next step fetches it: the model's stand-in for the
caller's loading of a program (log entry 3). A word the decoder refuses loads nothing. -/
def State.withFetchWord (s : State) (nbits w : Nat) : State :=
  match decodeTableWord nbits w with
  | some i => s.placeInstr i
  | none => s

end Sys2Proof.Machine
end

