-- ==== Sys2Proof/Machine/Boot.lean ====
section
/-! DEFINITION. What the caller does before a run (70_reset_and_hazards.md R253): parse, check admission, start. -/

namespace Sys2Proof.Machine

/-- Steps 2 to 4 of R253: the start state on admitted inputs, else the refusal. -/
def State.load (params : Params) (prog : List Instr) (preds : List Predictor) : Except Refusal State :=
  match (State.start params prog preds).refusal with
  | some r => .error r
  | none => .ok (State.start params prog preds)

/-- All of R253: a text that does not parse is refused as W1 (60_exceptions.md R230). -/
def State.loadText (params : Params) (text : String) (preds : List Predictor) : Except Refusal State :=
  match decodeProgram params text with
  | .error (line, e) => .error (.parseError line e)
  | .ok prog => State.load params prog preds

end Sys2Proof.Machine
end

