-- ==== Sys2Proof/Machine/Observe.lean ====
section
/-! DEFINITION. What the caller receives at the end of a run (40_execution_loop.md R112, 60_exceptions.md R225). -/

namespace Sys2Proof.Machine

/-- The output of a run that has ended (00_scope.md R12). -/
inductive Output where
  /-- Finished: the terminal hart state and the accuracy table (R112). The predictors' tables are no part of it. -/
  | finished (hart : Hart) (acc : AccuracyTable)
  /-- Faulted: the fatal condition alone (R225). -/
  | faulted (report : FaultReport)
  deriving DecidableEq, Repr

/-- The output of a state: none while the run goes on (40_execution_loop.md R112, R113). -/
def State.output (s : State) : Option Output :=
  match s.status with
  | .running => none
  | .finished => some (.finished s.hart s.acc)
  | .faulted r => some (.faulted r)

end Sys2Proof.Machine
end

