-- ==== Sys2Proof/Safety.lean ====
section
/-! DEFINITION. What counts as a safe run, and the terms the statements use: admitted inputs, the invariants of the machine,
what a branch leaves in the measurement state, and the two ways of comparing states. -/

namespace Sys2Proof.Machine

/-! ### Admitted inputs and safe states -/

/-- The inputs of a run are admitted (60_exceptions.md R231 to R234). -/
abbrev State.Admitted (s : State) : Prop := ProgramWellFormed s.params s.prog ∧ (s.preds.map Predictor.id).Nodup

/-- A safe state: the run goes on or has finished, and no fatal condition was met (60_exceptions.md R225). -/
abbrev State.Safe (s : State) : Prop := s.status = .running ∨ s.status = .finished

/-- A state in which a step is enabled and runs an instruction: Running, admitted, and the instruction at the pc is `i`
(40_execution_loop.md R101, R102). -/
def State.Ready (s : State) (i : Instr) : Prop := s.status = .running ∧ s.Admitted ∧ s.prog[s.pc]? = some i

/-- `k` is the position of the one `Label` named `name` (42_control_transfer.md R150). -/
def State.LabelAt (s : State) (name : String) (k : Nat) : Prop :=
  s.prog[k]? = some (Instr.label name) ∧ ∀ m, s.prog[m]? = some (Instr.label name) → m = k

/-- No `Label` of the program carries the name (60_exceptions.md R221). -/
def State.Undeclared (s : State) (name : String) : Prop := ∀ k : Nat, s.prog[k]? ≠ some (Instr.label name)

/-- The instruction at a position is a conditional branch (00_scope.md R13). -/
abbrev State.BranchAt (s : State) (site : Nat) : Prop := (s.prog[site]?.map Instr.isBranch) = some true

/-! ### The invariants -/

/-- A strategy's own entry for a site, if it is a counter and has one: the state itself, with its strength (10_state.md
R35). -/
def Strategy.entry (st : Strategy) (site : Nat) : Option (OneBit ⊕ TwoBit) :=
  match st with
  | .alwaysTaken => none
  | .neverTaken => none
  | .forwardTaken => none
  | .backwardTaken => none
  | .oneBit t => (tableGet t site).map Sum.inl
  | .twoBit t => (tableGet t site).map Sum.inr

/-- Whether a strategy is a counter with an entry for a site (10_state.md R35). -/
def Strategy.visited (st : Strategy) (site : Nat) : Bool := (st.entry site).isSome

/-- Whether a strategy is one of the two counters (10_state.md R35). -/
def Strategy.isCounter (st : Strategy) : Bool :=
  match st with
  | .alwaysTaken => false
  | .neverTaken => false
  | .forwardTaken => false
  | .backwardTaken => false
  | .oneBit _ => true
  | .twoBit _ => true

/-- How many entries a strategy's table has (10_state.md R35). -/
def Strategy.entries (st : Strategy) : Nat :=
  match st with
  | .alwaysTaken => 0
  | .neverTaken => 0
  | .forwardTaken => 0
  | .backwardTaken => 0
  | .oneBit t => t.length
  | .twoBit t => t.length

/-- The variant of a strategy, its table left out (44_predictors.md R183). -/
def Strategy.variant (st : Strategy) : Strategy :=
  match st with
  | .alwaysTaken => .alwaysTaken
  | .neverTaken => .neverTaken
  | .forwardTaken => .forwardTaken
  | .backwardTaken => .backwardTaken
  | .oneBit _ => .oneBit []
  | .twoBit _ => .twoBit []

/-- A strategy's table is in canonical form. -/
def Strategy.Canonical (st : Strategy) : Prop :=
  match st with
  | .alwaysTaken => True
  | .neverTaken => True
  | .forwardTaken => True
  | .backwardTaken => True
  | .oneBit t => TableSorted t
  | .twoBit t => TableSorted t

/-- "`0 <= pc <= len(prog)` always holds" (10_state.md R28). -/
def State.PcInRange (s : State) : Prop := s.pc ≤ s.prog.length

/-- Every finite map of the state is in canonical form, and no site map of the accuracy table is empty (10_state.md R33,
D14; log entry 22). -/
def State.TablesCanonical (s : State) : Prop :=
  TableSorted s.acc ∧ (∀ e ∈ s.acc, e.2 ≠ [] ∧ TableSorted e.2) ∧ ∀ p ∈ s.preds, p.strategy.Canonical

/-- Every accuracy record has `correct <= total`, has counted at least one query, belongs to a registered predictor, and is
keyed by the position of a conditional branch (10_state.md R34). -/
def State.RecordsSound (s : State) : Prop :=
  ∀ id site r, s.record id site = some r →
    r.correct ≤ r.total ∧ 0 < r.total ∧ id ∈ s.preds.map Predictor.id ∧ s.BranchAt site

/-- "All registered predictors have records at the same set of sites and with equal `total` at each site" (10_state.md
R34). -/
def State.SameCounts (s : State) : Prop :=
  ∀ p ∈ s.preds, ∀ q ∈ s.preds, ∀ site,
    (s.record p.id site).map Accuracy.total = (s.record q.id site).map Accuracy.total

/-- A counter that started with an empty table has an entry for exactly the sites it has a record for (10_state.md R35,
44_predictors.md R202). -/
def State.CountersVisited (s : State) : Prop :=
  ∀ p ∈ s.preds, p.strategy.isCounter = true → ∀ site, p.strategy.visited site = (s.record p.id site).isSome

/-- The invariant of a run: all of the above. -/
def State.Inv (s : State) : Prop :=
  s.PcInRange ∧ s.TablesCanonical ∧ s.RecordsSound ∧ s.SameCounts ∧ s.CountersVisited

/-- The scores of two predictors add up to the number of queries, at every site both have a record for. -/
def State.ScoresAddUp (s : State) (p q : Predictor) : Prop :=
  ∀ site r r', s.record p.id site = some r → s.record q.id site = some r' → r.correct + r'.correct = r.total

/-- "`correct(AlwaysTaken) + correct(NeverTaken) = total`" and "`correct(ForwardTaken) + correct(BackwardTaken) = total`"
at every site (44_predictors.md R189). -/
def State.OppositesAddUp (s : State) : Prop :=
  (∀ p ∈ s.preds, ∀ q ∈ s.preds, p.strategy = .alwaysTaken → q.strategy = .neverTaken → s.ScoresAddUp p q) ∧
    ∀ p ∈ s.preds, ∀ q ∈ s.preds, p.strategy = .forwardTaken → q.strategy = .backwardTaken → s.ScoresAddUp p q

/-! ### What a branch leaves -/

/-- What the branch-resolve protocol leaves in the measurement state (40_execution_loop.md R106 to R108), said by reads: each
predictor's own strategy is updated once, each has one more query in its record at this branch's position, a match counted
where its prediction from the prior state equals the outcome, and no other record changes. -/
def Scored (s t : State) (target : Nat) (outcome : Bool) : Prop :=
  t.preds = s.preds.map (fun p => { p with strategy := update p.strategy s.pc outcome }) ∧
  (∀ p ∈ s.preds, ∃ r, t.record p.id s.pc = some r ∧
    r.total = ((s.record p.id s.pc).map Accuracy.total).getD 0 + 1 ∧
    r.correct = ((s.record p.id s.pc).map Accuracy.correct).getD 0 +
      (if predict p.strategy s.pc target = outcome then 1 else 0)) ∧
  ∀ id site, (id ∉ s.preds.map Predictor.id ∨ site ≠ s.pc) → t.record id site = s.record id site

/-! ### Comparing states -/

/-- The inputs of a run are the same: nothing in a run changes them (10_state.md R40). -/
def SameInputs (s t : State) : Prop :=
  t.params = s.params ∧ t.prog = s.prog ∧
    t.preds.map (fun p => (p.id, p.strategy.variant)) = s.preds.map fun p => (p.id, p.strategy.variant)

/-- The measurement state is the same. -/
def SameMeasurement (s t : State) : Prop := t.preds = s.preds ∧ t.acc = s.acc

/-- Everything but the measurement state is the same (10_state.md R39). -/
def SameHart (s t : State) : Prop :=
  s.params = t.params ∧ s.prog = t.prog ∧ s.pc = t.pc ∧ s.regs = t.regs ∧ s.status = t.status

/-- Two outcomes of one kind, with the same reason or with states that a relation holds of. -/
def OutcomesAgree (rel : State → State → Prop) (a b : Host.Outcome State Fault Refusal) : Prop :=
  match a, b with
  | .next s, .next t => rel s t
  | .fault f, .fault g => f = g
  | .refused r, .refused q => r = q
  | _, _ => False

/-- The same hart and accuracy table, and the same predictor instances in some order (40_execution_loop.md R109). -/
def SameUpToOrder (s t : State) : Prop := SameHart s t ∧ s.acc = t.acc ∧ s.preds.Perm t.preds

/-- How often, among the next `n` steps, the conditional branch at a site executes: it does where it is at the pc of a
state from which a step leads on with the run still going (10_state.md R34). -/
def branchVisits (site : Nat) : Nat → State → Nat
  | 0, _ => 0
  | n + 1, s =>
    match step s with
    | .next t => (if s.pc = site ∧ s.BranchAt site ∧ t.status = .running then 1 else 0) + branchVisits site n t
    | .fault _ => 0
    | .refused _ => 0

end Sys2Proof.Machine
end

