-- ==== Sys2Proof/Certificates/Slice0/Obligations.lean ====
section
/-! DEFINITION. The statements for the provers, from the spec's numbered rules. Each docstring names the rule; where a
statement rests on the model's or the spec's own choice it says so and names the log entry. The tags in the encoding clauses
are the spec's own choice D2 (log entry 19), and that sources are read before the destination is written is its D23 (log
entry 21). -/

open Sys2Proof Sys2Proof.Machine

/-! ### The start of a run -/

/-- R250: on any program and predictor list the run starts Running, at position 0, every register 0, no accuracy record,
each predictor with the table it was given (PRED_INIT). -/
def Obligations.StartStateHasTheSpecsValues : Prop :=
  ∀ (params : Params) (prog : List Instr) (preds : List Predictor),
    let s := State.start params prog preds
    s.status = .running ∧ s.pc = 0 ∧ (∀ i, s.reg i = 0) ∧ s.acc = [] ∧ s.preds = preds ∧ s.prog = prog

/-- The model's choice (log entries 3, 5 to 8): State.reset is the start state with no program, the default parameters and
the six fresh predictors; its first step meets the fetch fault of an empty program at position 0. -/
def Obligations.ResetIsTheDefaultStart : Prop :=
  State.reset = State.start ⟨.src1MinusSrc2, -2147483648, 2147483647⟩ []
    [⟨"AlwaysTaken", .alwaysTaken⟩, ⟨"NeverTaken", .neverTaken⟩, ⟨"ForwardTaken", .forwardTaken⟩,
      ⟨"BackwardTaken", .backwardTaken⟩, ⟨"OneBitCounter", .oneBit []⟩, ⟨"TwoBitCounter", .twoBit []⟩] ∧
  step State.reset = .next { State.reset with status := .faulted (.fetchOutOfRange 0) }

/-! ### Registers -/

/-- R22, the read and write primitives: `x0` reads 0 and a write of it has no effect, another index in range reads the word
last written and its write changes nothing but that register, and an index of 32 or more raises RegisterIndexOutOfRange with
the pc and the index. -/
def Obligations.RegisterReadAndWrite : Prop :=
  ∀ (s : State) (i : Nat) (v : Word),
    readReg s 0 = .ok 0 ∧ writeReg s 0 v = .ok s ∧
    (32 ≤ i → readReg s i = .error (.registerIndexOutOfRange s.pc i) ∧
      writeReg s i v = .error (.registerIndexOutOfRange s.pc i)) ∧
    (i < 32 → readReg s i = .ok (s.reg i) ∧ ∃ t, writeReg s i v = .ok t ∧
      (t.params = s.params ∧ t.prog = s.prog ∧ t.preds = s.preds ∧ t.pc = s.pc ∧ t.status = s.status ∧ t.acc = s.acc) ∧
      ∀ j, j < 32 → readReg t j = .ok (if j = 0 then 0 else if j = i then v else s.reg j))

/-! ### Arithmetic -/

/-- R130: `add`, its encoding, its result modulo 2^64 (a write to `x0` discarded, the sources read first), its pc, and the
fault of an index out of range. -/
def Obligations.AddWritesTheSum : Prop :=
  ∀ (d a b : Nat) (s : State),
    encode (.add d a b) = ⟨0b000#3, [.reg d, .reg a, .reg b]⟩ ∧
    (d < 32 → a < 32 → b < 32 → ∃ t, exec (.add d a b) s = .next t ∧ t.pc = s.pc + 1 ∧ t.status = s.status ∧
      ∀ r, r < 32 → (t.reg r).toNat =
        if r = 0 then 0 else if r = d then ((s.reg a).toNat + (s.reg b).toNat) % 2 ^ 64 else (s.reg r).toNat) ∧
    ((32 ≤ d ∨ 32 ≤ a ∨ 32 ≤ b) → ∃ i, 32 ≤ i ∧ i ∈ [a, b, d] ∧
      exec (.add d a b) s = .next { s with status := .faulted (.registerIndexOutOfRange s.pc i) })

/-- `sub` (41_arithmetic.md): its encoding, its result modulo 2^64 in the order the parameter SUB_ORDER names, its pc, and
the fault of an index out of range. The order `src1 - src2` is the spec's own default D3 (log entry 5). -/
def Obligations.SubWritesTheDifference : Prop :=
  ∀ (d a b : Nat) (s : State),
    encode (.sub d a b) = ⟨0b001#3, [.reg d, .reg a, .reg b]⟩ ∧
    (d < 32 → a < 32 → b < 32 → ∃ t, exec (.sub d a b) s = .next t ∧ t.pc = s.pc + 1 ∧ t.status = s.status ∧
      ∀ r, r < 32 → (t.reg r).toNat =
        if r = 0 then 0
        else if r = d then
          (if s.params.subOrder = .src1MinusSrc2 then ((s.reg a).toNat + (2 ^ 64 - (s.reg b).toNat)) % 2 ^ 64
            else ((s.reg b).toNat + (2 ^ 64 - (s.reg a).toNat)) % 2 ^ 64)
        else (s.reg r).toNat) ∧
    ((32 ≤ d ∨ 32 ≤ a ∨ 32 ≤ b) → ∃ i, 32 ≤ i ∧ i ∈ [a, b, d] ∧
      exec (.sub d a b) s = .next { s with status := .faulted (.registerIndexOutOfRange s.pc i) })

/-- R140: `addi`, its encoding, its result `(x[src] + imm) mod 2^64` with `imm` a mathematical integer, its pc, and the
fault of an index out of range. -/
def Obligations.AddImmediateWritesTheSum : Prop :=
  ∀ (d a : Nat) (imm : Int) (s : State),
    encode (.addi d a imm) = ⟨0b010#3, [.reg d, .reg a, .imm imm]⟩ ∧
    (d < 32 → a < 32 → ∃ t, exec (.addi d a imm) s = .next t ∧ t.pc = s.pc + 1 ∧ t.status = s.status ∧
      ∀ r, r < 32 → ((t.reg r).toNat : Int) =
        if r = 0 then 0 else if r = d then (((s.reg a).toNat : Int) + imm) % 2 ^ 64 else ((s.reg r).toNat : Int)) ∧
    ((32 ≤ d ∨ 32 ≤ a) → ∃ i, 32 ≤ i ∧ i ∈ [a, d] ∧
      exec (.addi d a imm) s = .next { s with status := .faulted (.registerIndexOutOfRange s.pc i) })

/-- The frame of `add`, `sub` and `addi` (10_state.md section 1): every register but the destination, and `x0`, the inputs
and the measurement state are unchanged, for every operand. -/
def Obligations.ArithmeticFrame : Prop :=
  ∀ (d a b : Nat) (imm : Int) (i : Instr) (s t : State),
    (i = .add d a b ∨ i = .sub d a b ∨ i = .addi d a imm) → exec i s = .next t →
      (∀ r, r ≠ d ∨ r = 0 → t.reg r = s.reg r) ∧ SameInputs s t ∧ SameMeasurement s t

/-- The order in which a form's operands fault (60_exceptions.md section 1): the label, then `src1`, then `src2`, then `dst`.
The order is the spec's own choice D8 (log entry 11). -/
def Obligations.FirstBadOperandIsReported : Prop :=
  ∀ (d a b k : Nat) (imm : Int) (name : String) (s : State),
    (s.Undeclared name → exec (.bge a b name) s = .next (s.raise (.unresolvedLabel s.pc name)) ∧
      exec (.bne a b name) s = .next (s.raise (.unresolvedLabel s.pc name))) ∧
    (s.LabelAt name k → 32 ≤ a → exec (.bge a b name) s = .next (s.raise (.registerIndexOutOfRange s.pc a)) ∧
      exec (.bne a b name) s = .next (s.raise (.registerIndexOutOfRange s.pc a))) ∧
    (s.LabelAt name k → a < 32 → 32 ≤ b → exec (.bge a b name) s = .next (s.raise (.registerIndexOutOfRange s.pc b)) ∧
      exec (.bne a b name) s = .next (s.raise (.registerIndexOutOfRange s.pc b))) ∧
    (32 ≤ a → exec (.add d a b) s = .next (s.raise (.registerIndexOutOfRange s.pc a)) ∧
      exec (.sub d a b) s = .next (s.raise (.registerIndexOutOfRange s.pc a)) ∧
      exec (.addi d a imm) s = .next (s.raise (.registerIndexOutOfRange s.pc a))) ∧
    (a < 32 → 32 ≤ b → exec (.add d a b) s = .next (s.raise (.registerIndexOutOfRange s.pc b)) ∧
      exec (.sub d a b) s = .next (s.raise (.registerIndexOutOfRange s.pc b))) ∧
    (a < 32 → b < 32 → 32 ≤ d → exec (.add d a b) s = .next (s.raise (.registerIndexOutOfRange s.pc d)) ∧
      exec (.sub d a b) s = .next (s.raise (.registerIndexOutOfRange s.pc d)) ∧
      exec (.addi d a imm) s = .next (s.raise (.registerIndexOutOfRange s.pc d)))

/-! ### Control transfer -/

/-- R150, `resolve`: the position of the first `Label` of exactly that name from position 0 on, or UnresolvedLabel with the
pc and the name where there is none; it reads only the program. -/
def Obligations.ResolveScansForTheLabel : Prop :=
  ∀ (s : State) (name : String),
    (∀ k, resolve s name = .ok k ↔
      s.prog[k]? = some (Instr.label name) ∧ ∀ m, m < k → s.prog[m]? ≠ some (Instr.label name)) ∧
    (∀ r, resolve s name = .error r ↔
      r = .unresolvedLabel s.pc name ∧ s.Undeclared name)

/-- 20_memory.md section 4: on an admitted program a label-to-position table precomputed from it gives, in whatever order it
lists the labels, exactly what the scan gives, and nothing exactly where the scan faults. -/
def Obligations.PrecomputedLabelTableEqualsTheScan : Prop :=
  ∀ (s : State) (table : List (String × Nat)), ProgramWellFormed s.params s.prog →
    (∀ n k, (n, k) ∈ table ↔ s.prog[k]? = some (Instr.label n)) →
      ∀ name, table.lookup name = (resolve s name).toOption

/-- R151: `j`, its encoding; with its label declared it sets the pc to the label's position and changes nothing else; with
the label undeclared it faults with UnresolvedLabel and the pc is not changed. -/
def Obligations.JumpGoesToItsLabel : Prop :=
  ∀ (name : String) (s : State),
    encode (.j name) = ⟨0b011#3, [.name name]⟩ ∧
    (∀ k, s.LabelAt name k → exec (.j name) s = .next { s with pc := k }) ∧
    (s.Undeclared name →
      exec (.j name) s = .next { s with status := .faulted (.unresolvedLabel s.pc name) })

/-- R155: `bge`, its encoding; with its label declared it is taken iff `x[src1] >= x[src2]` as unsigned words, every
registered predictor is queried and scored with the pc before it moves, and the pc goes to the label or advances; an
undeclared label, taken or not, or an index out of range faults before any predictor is queried. -/
def Obligations.BranchIfGEIsUnsigned : Prop :=
  ∀ (a b : Nat) (name : String) (s : State),
    encode (.bge a b name) = ⟨0b100#3, [.reg a, .reg b, .name name]⟩ ∧
    (∀ k, a < 32 → b < 32 → s.LabelAt name k → (s.preds.map Predictor.id).Nodup →
      ∃ t, exec (.bge a b name) s = .next t ∧
        t.pc = (if (s.reg b).toNat ≤ (s.reg a).toNat then k else s.pc + 1) ∧
        Scored s t k (decide ((s.reg b).toNat ≤ (s.reg a).toNat)) ∧ t.status = s.status ∧ t.regs = s.regs) ∧
    (s.Undeclared name →
      exec (.bge a b name) s = .next { s with status := .faulted (.unresolvedLabel s.pc name) }) ∧
    (∀ k, s.LabelAt name k → 32 ≤ a ∨ 32 ≤ b → ∃ i, 32 ≤ i ∧ i ∈ [a, b] ∧
      exec (.bge a b name) s = .next { s with status := .faulted (.registerIndexOutOfRange s.pc i) })

/-- R160: `bne`, as R155 with the outcome taken iff the two words differ. -/
def Obligations.BranchIfNEComparesWords : Prop :=
  ∀ (a b : Nat) (name : String) (s : State),
    encode (.bne a b name) = ⟨0b101#3, [.reg a, .reg b, .name name]⟩ ∧
    (∀ k, a < 32 → b < 32 → s.LabelAt name k → (s.preds.map Predictor.id).Nodup →
      ∃ t, exec (.bne a b name) s = .next t ∧
        t.pc = (if s.reg a = s.reg b then s.pc + 1 else k) ∧
        Scored s t k (decide (s.reg a ≠ s.reg b)) ∧ t.status = s.status ∧ t.regs = s.regs) ∧
    (s.Undeclared name →
      exec (.bne a b name) s = .next { s with status := .faulted (.unresolvedLabel s.pc name) }) ∧
    (∀ k, s.LabelAt name k → 32 ≤ a ∨ 32 ≤ b → ∃ i, 32 ≤ i ∧ i ∈ [a, b] ∧
      exec (.bne a b name) s = .next { s with status := .faulted (.registerIndexOutOfRange s.pc i) })

/-- The frame of `bge` and `bne` (10_state.md section 1, 44_predictors.md section 3), for every operand: no register
changes, the inputs stay, and no accuracy record or counter entry of another site changes, nor any prediction there. -/
def Obligations.BranchFrame : Prop :=
  ∀ (a b : Nat) (name : String) (i : Instr) (s t : State),
    (i = .bge a b name ∨ i = .bne a b name) → exec i s = .next t →
      (∀ r, t.reg r = s.reg r) ∧ SameInputs s t ∧
      (∀ id site, id ∉ s.preds.map Predictor.id ∨ site ≠ s.pc → t.record id site = s.record id site) ∧
      ∀ (k : Nat) (p q : Predictor), s.preds[k]? = some p → t.preds[k]? = some q →
        ∀ site target, site ≠ s.pc → q.strategy.entry site = p.strategy.entry site ∧
          predict q.strategy site target = predict p.strategy site target

/-- 40_execution_loop.md section 2: with an empty PRED_LIST a branch writes no accuracy record and only moves the pc. -/
def Obligations.EmptyPredictorListOnlyMovesThePc : Prop :=
  ∀ (a b k : Nat) (name : String) (s : State), s.preds = [] → a < 32 → b < 32 → s.LabelAt name k →
    exec (.bge a b name) s = .next { s with pc := if (s.reg b).toNat ≤ (s.reg a).toNat then k else s.pc + 1 } ∧
    exec (.bne a b name) s = .next { s with pc := if s.reg a = s.reg b then s.pc + 1 else k }

/-- 42_control_transfer.md section 4: the target of a conditional branch is the position of a `Label` of the name it refers
to, inside the sequence, and never the branch's own position. -/
def Obligations.BranchTargetIsAnotherPosition : Prop :=
  ∀ (s : State) (name : String) (k : Nat), s.BranchAt s.pc → resolve s name = .ok k →
    s.prog[k]? = some (Instr.label name) ∧ k < s.prog.length ∧ k ≠ s.pc

/-! ### Finish and Label -/

/-- R170: `finish` halts: the status becomes Finished and the pc, the registers, the accuracy table and the predictors are
unchanged; after it no step is enabled. -/
def Obligations.FinishHalts : Prop :=
  encode .finish = ⟨0b110#3, []⟩ ∧
    ∀ s : State, exec .finish s = .next { s with status := .finished } ∧ ∀ u, step { s with status := .finished } ≠ .next u

/-- R175: `Label` advances the pc by one position and changes nothing else. -/
def Obligations.LabelOnlyAdvances : Prop :=
  ∀ (name : String) (s : State),
    encode (.label name) = ⟨0b111#3, [.name name]⟩ ∧ exec (.label name) s = .next { s with pc := s.pc + 1 }

/-- The frame of `j`, `finish` and `label` (10_state.md sections 1 and 2), for every operand. -/
def Obligations.JumpFinishLabelFrame : Prop :=
  ∀ (name : String) (i : Instr) (s t : State),
    (i = .j name ∨ i = .finish ∨ i = .label name) → exec i s = .next t →
      (∀ r, t.reg r = s.reg r) ∧ SameInputs s t ∧ SameMeasurement s t

/-! ### The predictor engines -/

/-- R185 and R186: AlwaysTaken predicts taken and NeverTaken not taken, neither changes, and over the executions of a site
they score the taken and the not-taken ones. -/
def Obligations.AlwaysAndNeverTaken : Prop :=
  ∀ (id : String) (h : Hart) (target : Nat),
    (∀ o, query ⟨id, .alwaysTaken⟩ h target o = (o, ⟨id, .alwaysTaken⟩) ∧
      query ⟨id, .neverTaken⟩ h target o = (!o, ⟨id, .neverTaken⟩)) ∧
    ∀ os : List Bool,
      (os.filter fun o => (query ⟨id, .alwaysTaken⟩ h target o).1).length = os.count true ∧
      (os.filter fun o => (query ⟨id, .neverTaken⟩ h target o).1).length = os.length - os.count true

/-- R187 and R188: ForwardTaken predicts taken iff the target lies after the branch, BackwardTaken iff before it, and
neither changes. -/
def Obligations.ForwardAndBackwardTaken : Prop :=
  ∀ (id : String) (h : Hart) (target : Nat) (o : Bool),
    query ⟨id, .forwardTaken⟩ h target o = (decide (target > h.pc) == o, ⟨id, .forwardTaken⟩) ∧
    query ⟨id, .backwardTaken⟩ h target o = (decide (target < h.pc) == o, ⟨id, .backwardTaken⟩)

/-- R195: the 1-bit counter predicts its state, NotTaken where it has no entry, and its entry becomes exactly the
outcome. -/
def Obligations.OneBitCounterTransition : Prop :=
  ∀ (id : String) (table : Table Nat OneBit) (h : Hart) (target : Nat) (o : Bool),
    (query ⟨id, .oneBit table⟩ h target o).1 = (decide ((tableGet table h.pc).getD .notTaken = .taken) == o) ∧
    ∃ table', (query ⟨id, .oneBit table⟩ h target o).2 = ⟨id, .oneBit table'⟩ ∧
      tableGet table' h.pc = some (if o then .taken else .notTaken) ∧
      ∀ site, site ≠ h.pc → tableGet table' site = tableGet table site

/-- R200: the 2-bit counter, with its states numbered 0 to 3 in the listed order, predicts taken iff its state is 2 or more,
0 where it has no entry, and moves one step up on taken and down on not taken, saturating at 3 and 0. -/
def Obligations.TwoBitCounterTransition : Prop :=
  ∀ (id : String) (table : Table Nat TwoBit) (h : Hart) (target : Nat) (o : Bool),
    let before := (twoBitCode ((tableGet table h.pc).getD .stronglyNotTaken)).toNat
    (query ⟨id, .twoBit table⟩ h target o).1 = (decide (2 ≤ before) == o) ∧
    ∃ table' after, (query ⟨id, .twoBit table⟩ h target o).2 = ⟨id, .twoBit table'⟩ ∧
      tableGet table' h.pc = some after ∧
      (twoBitCode after).toNat = (if o then min (before + 1) 3 else before - 1) ∧
      ∀ site, site ≠ h.pc → tableGet table' site = tableGet table site

/-- 44_predictors.md section 3: after a query of the 1-bit counter its prediction at that site is the outcome just given, so
its next query there matches iff the next outcome is the same. -/
def Obligations.OneBitCounterRepeatsTheLastOutcome : Prop :=
  ∀ (id : String) (table : Table Nat OneBit) (h h' : Hart) (target target' : Nat) (o o' : Bool), h'.pc = h.pc →
    predict (query ⟨id, .oneBit table⟩ h target o).2.strategy h.pc target' = o ∧
    (query (query ⟨id, .oneBit table⟩ h target o).2 h' target' o').1 = (o == o')

/-- 44_predictors.md section 3: over a site's outcomes from the default state, the 2-bit counter comes to predict taken only
after two taken outcomes in a row, and from StronglyTaken it comes to predict not taken only after two not-taken ones. -/
def Obligations.TwoBitCounterNeedsTwoInARow : Prop :=
  ∀ os : List Bool,
    (predictTwoBit (os.foldl updateTwoBit .stronglyNotTaken) = true →
      ∃ before after, os = before ++ [true, true] ++ after) ∧
    (predictTwoBit (os.foldl updateTwoBit .stronglyTaken) = false →
      ∃ before after, os = before ++ [false, false] ++ after)

/-- R181 and R202. A query answers true iff the prediction from the prior state equals the outcome, keeps the instance's
identity and variant, and reads of the hart only the pc. It reads and writes the entry of that site alone: at another site
no entry and no prediction changes, and two strategies of one variant with the same entry for the site answer alike. The
entry is there after the query, at the state one update away from the entry before or, at the first visit, from the default.
No entry is removed, no step but a conditional branch's touches a predictor, and a table that started empty never has more
entries than the program has conditional branches. -/
def Obligations.QueryContract : Prop :=
  (∀ (p : Predictor) (h : Hart) (target : Nat) (o : Bool),
    ((query p h target o).1 = true ↔ predict p.strategy h.pc target = o) ∧
    (query p h target o).2.id = p.id ∧ (query p h target o).2.strategy.variant = p.strategy.variant ∧
    (∀ h' : Hart, h'.pc = h.pc → query p h' target o = query p h target o) ∧
    (∀ site target', site ≠ h.pc →
      (query p h target o).2.strategy.entry site = p.strategy.entry site ∧
      predict (query p h target o).2.strategy site target' = predict p.strategy site target') ∧
    (∀ q : Predictor, q.strategy.variant = p.strategy.variant → q.strategy.entry h.pc = p.strategy.entry h.pc →
      (query q h target o).1 = (query p h target o).1 ∧
      (query q h target o).2.strategy.entry h.pc = (query p h target o).2.strategy.entry h.pc) ∧
    (∀ table, p.strategy = .oneBit table →
      (query p h target o).2.strategy.entry h.pc = some (.inl (updateOneBit o))) ∧
    (∀ table, p.strategy = .twoBit table → (query p h target o).2.strategy.entry h.pc =
      some (.inr (updateTwoBit ((tableGet table h.pc).getD .stronglyNotTaken) o))) ∧
    ∀ site, p.strategy.visited site = true → (query p h target o).2.strategy.visited site = true) ∧
  (∀ s t : State, step s = .next t → ¬s.BranchAt s.pc → t.preds = s.preds) ∧
  ∀ s : State, s.Inv → ∀ p ∈ s.preds, p.strategy.entries ≤ s.prog.countP Instr.isBranch

/-! ### The step -/

/-- 40_execution_loop.md section 2: in a Running state with admitted inputs the step is the execution of the instruction at
the pc, and nothing around it. -/
def Obligations.StepRunsTheFetchedInstruction : Prop :=
  ∀ (s : State) (i : Instr), s.Ready i → step s = exec i s

/-- R102: the fetch gives the instruction at the pc, and where the pc is at or past the end the step raises FetchOutOfRange
with the pc and changes nothing else. -/
def Obligations.FetchOutsideTheSequenceFaults : Prop :=
  ∀ s : State,
    (∀ i, s.prog[s.pc]? = some i → fetch s = .ok i) ∧
    (s.status = .running → s.Admitted → s.prog.length ≤ s.pc →
      step s = .next { s with status := .faulted (.fetchOutOfRange s.pc) })

/-- 40_execution_loop.md section 1: no step is enabled once the status is Finished or Faulted, and that is the only place
where the model's step answers a fault. The form of the answer is the model's choice (log entry 1). -/
def Obligations.NoStepAfterTheEnd : Prop :=
  ∀ s : State,
    (s.status = .finished → step s = .fault .runFinished) ∧
    (∀ r, s.status = .faulted r → step s = .fault (.runFaulted r)) ∧
    ∀ f, step s = .fault f → s.status ≠ .running

/-- 60_exceptions.md section 3: a Running state is refused exactly where its program or its predictor list is not admitted.
That the check stands in the step is the model's choice (log entry 4). -/
def Obligations.StepRefusesExactlyUnadmittedInputs : Prop :=
  ∀ s : State, s.status = .running → ((∃ r, step s = .refused r) ↔ ¬s.Admitted)

/-- 60_exceptions.md section 3: a step refuses for a duplicate label, a register index, an immediate or a duplicate identity
and for nothing else, and each refusal names what the inputs are refused for. Which of several is named is the model's
choice (log entry 4). -/
def Obligations.RefusalNamesItsCause : Prop :=
  ∀ s : State,
    (∀ r, step s = .refused r → (∃ n, r = .duplicateLabel n) ∨ (∃ i, r = .registerIndex i) ∨
      (∃ k, r = .immediateRange k) ∨ ∃ id, r = .duplicateIdentity id) ∧
    (∀ n, step s = .refused (.duplicateLabel n) →
      ∃ k m : Nat, k < m ∧ s.prog[k]? = some (Instr.label n) ∧ s.prog[m]? = some (Instr.label n)) ∧
    (∀ r, step s = .refused (.registerIndex r) → 32 ≤ r ∧ ∃ i ∈ s.prog, r ∈ i.registers) ∧
    (∀ k, step s = .refused (.immediateRange k) →
      ¬(s.params.immMin ≤ k ∧ k ≤ s.params.immMax) ∧ ∃ i ∈ s.prog, k ∈ i.immediates) ∧
    ∀ id, step s = .refused (.duplicateIdentity id) → 2 ≤ (s.preds.map Predictor.id).count id

/-- 60_exceptions.md section 1: a step that ends in a fatal condition changes the status and nothing else, and the report
carries the pc of the faulting instruction. The state after a fault is the spec's own choice D20 (log entry 24). -/
def Obligations.FaultChangesOnlyTheStatus : Prop :=
  ∀ (s t : State) (r : FaultReport), step s = .next t → t.status = .faulted r →
    t = { s with status := .faulted r } ∧
    (r = .fetchOutOfRange s.pc ∨ (∃ name, r = .unresolvedLabel s.pc name) ∨ ∃ i, r = .registerIndexOutOfRange s.pc i)

/-- 60_exceptions.md section 1: on admitted inputs a step never raises RegisterIndexOutOfRange. -/
def Obligations.AdmittedProgramNeverFaultsOnARegister : Prop :=
  ∀ (s t : State) (pc i : Nat), step s = .next t → t.status ≠ .faulted (.registerIndexOutOfRange pc i)

/-- R111: a step ends the run normally iff the instruction at the pc is a Finish, and ends it abnormally only by a fatal
condition: the pc is outside the sequence, or the instruction refers to an undeclared label. -/
def Obligations.OnlyFinishEndsARunNormally : Prop :=
  ∀ s t : State, step s = .next t →
    (t.status = .finished ↔ s.prog[s.pc]? = some .finish) ∧
    (t.status = .running ∨ t.status = .finished ∨ s.prog.length ≤ s.pc ∨
      ∃ i n, s.prog[s.pc]? = some i ∧ n ∈ i.refersTo ∧ s.Undeclared n)

/-- R27: how each instruction moves the pc, where its step meets no fatal condition. -/
def Obligations.EachInstructionMovesThePc : Prop :=
  ∀ (s t : State) (i : Instr), s.Ready i → step s = .next t → t.Safe →
    match i with
    | .add _ _ _ => t.pc = s.pc + 1
    | .sub _ _ _ => t.pc = s.pc + 1
    | .addi _ _ _ => t.pc = s.pc + 1
    | .j l => s.LabelAt l t.pc
    | .bge a b l => if (s.reg b).toNat ≤ (s.reg a).toNat then s.LabelAt l t.pc else t.pc = s.pc + 1
    | .bne a b l => if s.reg a ≠ s.reg b then s.LabelAt l t.pc else t.pc = s.pc + 1
    | .finish => t.pc = s.pc
    | .label _ => t.pc = s.pc + 1

/-- 10_state.md section 8, 20_memory.md section 1: no step changes the program, the parameters, or the predictors'
identities, variants and order. -/
def Obligations.StepKeepsTheInputs : Prop :=
  ∀ s t : State, step s = .next t → SameInputs s t

/-- 10_state.md section 1: a step changes a register only where the instruction at the pc is Add, Sub or AddImmediate with
that register as its destination; `x0` never. -/
def Obligations.OnlyArithmeticWritesARegister : Prop :=
  ∀ (s t : State) (r : Nat), step s = .next t → t.reg r ≠ s.reg r →
    r ≠ 0 ∧ ∃ a b imm, s.prog[s.pc]? = some (.add r a b) ∨ s.prog[s.pc]? = some (.sub r a b) ∨
      s.prog[s.pc]? = some (.addi r a imm)

/-- 40_execution_loop.md section 2: no predictor is queried and no record changes but at a conditional branch. -/
def Obligations.OnlyBranchesAreMeasured : Prop :=
  ∀ s t : State, step s = .next t → ¬SameMeasurement s t → s.BranchAt s.pc

/-- 10_state.md section 4: accuracy records are never removed during a run, and no count goes down. -/
def Obligations.RecordsAreNeverRemoved : Prop :=
  ∀ (s t : State) (id : String) (site : Nat) (r : Accuracy), step s = .next t → s.record id site = some r →
    ∃ r', t.record id site = some r' ∧ r.total ≤ r'.total ∧ r.correct ≤ r'.correct

/-! ### Inputs and outputs of a run -/

/-- 70_reset_and_hazards.md section 2: loading gives the start state exactly where the inputs are admitted, and a text that
does not parse is refused. -/
def Obligations.LoadingStartsAdmittedInputs : Prop :=
  ∀ (params : Params) (prog : List Instr) (preds : List Predictor) (s : State),
    (State.load params prog preds = .ok s ↔ s = State.start params prog preds ∧ s.Admitted) ∧
    ∀ text : String,
      (decodeProgram params text = .ok prog → State.loadText params text preds = State.load params prog preds) ∧
      ∀ n e, decodeProgram params text = .error (n, e) → State.loadText params text preds = .error (.parseError n e)

/-- R112: a run finishes at the step that fetches a Finish, and the output of a finished run is the final pc, the position of
that Finish, the registers `x0` to `x31` with `x0` zero, and the accuracy table. R225: a faulted run delivers the fault
alone, and is no finished run. R113: a run that goes on has no output, and there is no step limit: a Running state with
admitted inputs always has a next step. -/
def Obligations.OutputOfARun : Prop :=
  ∀ s : State,
    (∀ t, step s = .next t → (t.status = .finished ↔ s.prog[s.pc]? = some .finish) ∧
      (t.status = .finished → t.pc = s.pc ∧ t.acc = s.acc ∧ ∀ r, t.reg r = s.reg r)) ∧
    (s.status = .finished → ∃ h : Hart, s.output = some (.finished h s.acc) ∧ h.pc = s.pc ∧ h.x[0] = 0 ∧
      ∀ (i : Nat) (hi : i < 32), h.x[i] = s.reg i) ∧
    (∀ r, s.status = .faulted r → s.output = some (.faulted r)) ∧
    (s.status = .running → s.output = none ∧ (s.Admitted → ∃ t, step s = .next t))

/-- The model's choice (log entry 3): the host's probe makes the next step run the decoded instruction. -/
def Obligations.ProbeRunsTheDecodedInstruction : Prop :=
  ∀ (s : State) (nbits w : Nat) (i : Instr), decodeTableWord nbits w = some i →
    (s.preds.map Predictor.id).Nodup → s.params.immMin ≤ 0 → 0 ≤ s.params.immMax →
      (s.withFetchWord nbits w).pc = s.pc ∧ step (s.withFetchWord nbits w) = exec i (s.withFetchWord nbits w)

/-! ### Decoding -/

/-- 30_encoding.md section 4: decoding the tag and operand fields of a term gives the term back, and only they decode to it.
The tags are the spec's own choice D2 (log entry 19). -/
def Obligations.DecodeInvertsEncode : Prop :=
  ∀ (i : Instr) (e : Encoded), decode e = .ok i ↔ e = encode i

/-- 30_encoding.md section 3: the decoder refuses a tag with operand fields exactly where they are not of the tag's
shape. -/
def Obligations.OtherShapesAreRefused : Prop :=
  ∀ e : Encoded, (∃ r, decode e = .error r) ↔ e.operands.map Operand.kind ≠ shapeOf e.tag

/-- 30_encoding.md section 1: the eight opcode-table words, each tag with operand fields of zero. The tags are the spec's
own choice D2, and what the fields of zero are is the model's (log entry 19). -/
def Obligations.OpcodeTableWordsDecode : Prop :=
  [0, 1, 2, 3, 4, 5, 6, 7].map (decodeTableWord 8) =
    [some (Instr.add 0 0 0), some (.sub 0 0 0), some (.addi 0 0 0), some (.j ""), some (.bge 0 0 ""), some (.bne 0 0 ""),
      some .finish, some (Instr.label "")]

/-- 30_encoding.md section 5: the lines of the worked transcription, and a line of each other opcode, decode to the terms
the spec gives, with the default range of immediates (log entry 6). -/
def Obligations.SpecLinesDecode : Prop :=
  (["addi x1, x0, 5", "loop:", "addi x1, x1, -1", "bne x1, x0, loop", "finish", "add x2, x2, x1", "sub x3, x0, x2",
      "bge x1, x2, done", "j end", ""].map (decodeLine Config.defaultParams)) =
    [.ok (some (.addi 1 0 5)), .ok (some (Instr.label "loop")), .ok (some (.addi 1 1 (-1))), .ok (some (.bne 1 0 "loop")),
      .ok (some .finish), .ok (some (.add 2 2 1)), .ok (some (.sub 3 0 2)), .ok (some (.bge 1 2 "done")),
      .ok (some (.j "end")), .ok none]

/-- 30_encoding.md section 5: the line that spells a term decodes to the term, for every register number, every immediate in
range and every name that text can spell. The details of the text are the spec's own reading D22 (log entry 16), among them
that an integer outside the range is no immediate and may be a label reference (log entry 17). -/
def Obligations.TextRoundTrip : Prop :=
  ∀ (p : Params) (i : Instr), i.spellable p = true → decodeLine p (encodeLine i) = .ok (some i)

/-- 30_encoding.md section 5: in a program text that is accepted each line that is not blank yields exactly one term, in line
order, at the position that is the number of non-blank lines before it, and blank lines yield none. That only the empty line
is blank, and a line of white space is refused, is the spec's own reading D22 (log entry 16). -/
def Obligations.LinesBecomePositions : Prop :=
  ∀ (p : Params) (lines : List (List Char)) (n : Nat) (prog : List Instr), decodeLines p lines n = .ok prog →
    prog.length = lines.countP (fun l => l ≠ []) ∧
    ∀ (k : Nat) (line : List Char), lines[k]? = some line → line ≠ [] →
      ∃ i, decodeChars p line = .ok (some i) ∧ prog[(lines.take k).countP (fun l => l ≠ [])]? = some i

/-- 30_encoding.md sections 3 and 5: a label named like a register, or like an immediate, can be declared, but a `j`, `bge`
or `bne` that refers to it has the wrong operand shape, and no line at all decodes to a term that refers to it. A label
named like an integer outside IMM_MIN .. IMM_MAX is named like no immediate, and can be declared and referred to (the
spec's own reading D22, log entries 16 and 17). -/
def Obligations.RegisterAndIntegerNamesCannotBeReferenced : Prop :=
  ∀ (p : Params) (a b : Nat),
    (∀ o : Operand, ((∃ n, o = .reg n) ∨ ∃ k, o = .imm k ∧ p.immMin ≤ k ∧ k ≤ p.immMax) →
      decodeChars p (o.text ++ [':']) = .ok (some (Instr.label (String.ofList o.text))) ∧
      decodeChars p (['j', ' '] ++ o.text) = .error (.badShape 0b011#3) ∧
      decodeChars p (['b', 'g', 'e', ' '] ++ (Operand.reg a).text ++ [',', ' '] ++ (Operand.reg b).text ++ [',', ' '] ++
        o.text) = .error (.badShape 0b100#3) ∧
      decodeChars p (['b', 'n', 'e', ' '] ++ (Operand.reg a).text ++ [',', ' '] ++ (Operand.reg b).text ++ [',', ' '] ++
        o.text) = .error (.badShape 0b101#3) ∧
      ∀ line i n, decodeChars p line = .ok (some i) → n ∈ i.refersTo → n ≠ String.ofList o.text) ∧
    ∀ k : Int, ¬(p.immMin ≤ k ∧ k ≤ p.immMax) →
      decodeChars p ((Operand.imm k).text ++ [':']) = .ok (some (Instr.label (String.ofList (Operand.imm k).text))) ∧
      decodeChars p (['j', ' '] ++ (Operand.imm k).text) = .ok (some (.j (String.ofList (Operand.imm k).text))) ∧
      decodeChars p (['b', 'g', 'e', ' '] ++ (Operand.reg a).text ++ [',', ' '] ++ (Operand.reg b).text ++ [',', ' '] ++
        (Operand.imm k).text) = .ok (some (.bge a b (String.ofList (Operand.imm k).text))) ∧
      decodeChars p (['b', 'n', 'e', ' '] ++ (Operand.reg a).text ++ [',', ' '] ++ (Operand.reg b).text ++ [',', ' '] ++
        (Operand.imm k).text) = .ok (some (.bne a b (String.ofList (Operand.imm k).text)))

/-! ### Invariants and whole-machine results -/

/-- 10_state.md sections 2, 4 and 5: the invariant holds at the start of a run on any program, with any predictors whose
tables are empty, and so at reset. That the tables are sorted lists without empty maps is the model's choice of their form
(log entry 22). -/
def Obligations.StartMeetsTheInvariant : Prop :=
  (∀ (params : Params) (prog : List Instr) (preds : List Predictor),
    (∀ p ∈ preds, p.strategy = p.strategy.variant) →
      (State.start params prog preds).Inv ∧ (State.start params prog preds).OppositesAddUp) ∧
  State.reset.Inv

/-- 10_state.md sections 2, 4 and 5: every step keeps the invariant: the pc stays in `0 .. len(prog)`, the tables stay
canonical (sorted lists without empty maps: the model's choice of their form, log entry 22), every record stays sound, all predictors keep records at the same sites with equal totals, and a counter has an
entry exactly where it has a record. -/
def Obligations.StepKeepsTheInvariant : Prop :=
  ∀ s t : State, s.Inv → step s = .next t → t.Inv

/-- 44_predictors.md section 3: in a state that meets the invariant no counter's table has more entries than the program
has conditional branches. -/
def Obligations.CounterTablesStayWithinTheBranches : Prop :=
  ∀ s : State, s.Inv → ∀ p ∈ s.preds, p.strategy.entries ≤ s.prog.countP Instr.isBranch

/-- 44_predictors.md section 2: every step keeps the laws that the scores of AlwaysTaken and NeverTaken, and of ForwardTaken
and BackwardTaken, add up to the executions of each site. -/
def Obligations.StepKeepsOppositesAddingUp : Prop :=
  ∀ s t : State, s.SameCounts → s.OppositesAddUp → step s = .next t → t.OppositesAddUp

/-- 10_state.md section 7: two runs on the same program from the same hart state go through the same hart states, meet the
same fatal condition and end alike, whatever predictors are registered and whatever their tables and the accuracy table
hold. -/
def Obligations.PredictorsNeverChangeTheRun : Prop :=
  ∀ (n : Nat) (s t : State), SameHart s t → (s.preds.map Predictor.id).Nodup → (t.preds.map Predictor.id).Nodup →
    OutcomesAgree SameHart (Host.Core.run Sys2Proof.core n s) (Host.Core.run Sys2Proof.core n t)

/-- 40_execution_loop.md section 2: two runs that differ only in the order in which the predictors are registered have the
same hart states, the same accuracy table and the same final instances at every step. -/
def Obligations.RegistrationOrderHasNoEffect : Prop :=
  ∀ (n : Nat) (s t : State), SameUpToOrder s t → (s.preds.map Predictor.id).Nodup → TableSorted s.acc →
    OutcomesAgree SameUpToOrder (Host.Core.run Sys2Proof.core n s) (Host.Core.run Sys2Proof.core n t)

/-- 10_state.md section 4: over any number of steps the `total` of a registered predictor at a site grows by exactly the
number of times that site's conditional branch executed. -/
def Obligations.TotalsCountBranchExecutions : Prop :=
  ∀ (n : Nat) (s t : State) (p : Predictor) (site : Nat), p ∈ s.preds →
    Host.Core.run Sys2Proof.core n s = .next t →
      ((t.record p.id site).map Accuracy.total).getD 0 =
        ((s.record p.id site).map Accuracy.total).getD 0 + branchVisits site n s
end

