-- ==== Sys2Proof/Laws/State.lean ====
section
/-! SUPPORT. One lemma per field per update of State, each true by rfl, so that no later proof unfolds a record update. -/

namespace Sys2Proof.Machine

@[simp] theorem State.jumpTo_params (s : State) (t : Nat) : (s.jumpTo t).params = s.params := rfl
@[simp] theorem State.jumpTo_prog (s : State) (t : Nat) : (s.jumpTo t).prog = s.prog := rfl
@[simp] theorem State.jumpTo_preds (s : State) (t : Nat) : (s.jumpTo t).preds = s.preds := rfl
@[simp] theorem State.jumpTo_pc (s : State) (t : Nat) : (s.jumpTo t).pc = t := rfl
@[simp] theorem State.jumpTo_regs (s : State) (t : Nat) : (s.jumpTo t).regs = s.regs := rfl
@[simp] theorem State.jumpTo_status (s : State) (t : Nat) : (s.jumpTo t).status = s.status := rfl
@[simp] theorem State.jumpTo_acc (s : State) (t : Nat) : (s.jumpTo t).acc = s.acc := rfl

@[simp] theorem State.advance_params (s : State) : s.advance.params = s.params := rfl
@[simp] theorem State.advance_prog (s : State) : s.advance.prog = s.prog := rfl
@[simp] theorem State.advance_preds (s : State) : s.advance.preds = s.preds := rfl
@[simp] theorem State.advance_pc (s : State) : s.advance.pc = s.pc + 1 := rfl
@[simp] theorem State.advance_regs (s : State) : s.advance.regs = s.regs := rfl
@[simp] theorem State.advance_status (s : State) : s.advance.status = s.status := rfl
@[simp] theorem State.advance_acc (s : State) : s.advance.acc = s.acc := rfl

@[simp] theorem State.halt_params (s : State) : s.halt.params = s.params := rfl
@[simp] theorem State.halt_prog (s : State) : s.halt.prog = s.prog := rfl
@[simp] theorem State.halt_preds (s : State) : s.halt.preds = s.preds := rfl
@[simp] theorem State.halt_pc (s : State) : s.halt.pc = s.pc := rfl
@[simp] theorem State.halt_regs (s : State) : s.halt.regs = s.regs := rfl
@[simp] theorem State.halt_status (s : State) : s.halt.status = .finished := rfl
@[simp] theorem State.halt_acc (s : State) : s.halt.acc = s.acc := rfl

@[simp] theorem State.raise_params (s : State) (r : FaultReport) : (s.raise r).params = s.params := rfl
@[simp] theorem State.raise_prog (s : State) (r : FaultReport) : (s.raise r).prog = s.prog := rfl
@[simp] theorem State.raise_preds (s : State) (r : FaultReport) : (s.raise r).preds = s.preds := rfl
@[simp] theorem State.raise_pc (s : State) (r : FaultReport) : (s.raise r).pc = s.pc := rfl
@[simp] theorem State.raise_regs (s : State) (r : FaultReport) : (s.raise r).regs = s.regs := rfl
@[simp] theorem State.raise_status (s : State) (r : FaultReport) : (s.raise r).status = .faulted r := rfl
@[simp] theorem State.raise_acc (s : State) (r : FaultReport) : (s.raise r).acc = s.acc := rfl

@[simp] theorem State.placeInstr_params (s : State) (i : Instr) : (s.placeInstr i).params = s.params := rfl
@[simp] theorem State.placeInstr_prog (s : State) (i : Instr) :
    (s.placeInstr i).prog = List.replicate s.pc .finish ++ [i] := rfl
@[simp] theorem State.placeInstr_preds (s : State) (i : Instr) : (s.placeInstr i).preds = s.preds := rfl
@[simp] theorem State.placeInstr_pc (s : State) (i : Instr) : (s.placeInstr i).pc = s.pc := rfl
@[simp] theorem State.placeInstr_regs (s : State) (i : Instr) : (s.placeInstr i).regs = s.regs := rfl
@[simp] theorem State.placeInstr_status (s : State) (i : Instr) : (s.placeInstr i).status = .running := rfl
@[simp] theorem State.placeInstr_acc (s : State) (i : Instr) : (s.placeInstr i).acc = s.acc := rfl

@[simp] theorem State.start_params (p : Params) (g : List Instr) (q : List Predictor) : (State.start p g q).params = p := rfl
@[simp] theorem State.start_prog (p : Params) (g : List Instr) (q : List Predictor) : (State.start p g q).prog = g := rfl
@[simp] theorem State.start_preds (p : Params) (g : List Instr) (q : List Predictor) : (State.start p g q).preds = q := rfl
@[simp] theorem State.start_pc (p : Params) (g : List Instr) (q : List Predictor) : (State.start p g q).pc = 0 := rfl
@[simp] theorem State.start_status (p : Params) (g : List Instr) (q : List Predictor) :
    (State.start p g q).status = .running := rfl
@[simp] theorem State.start_acc (p : Params) (g : List Instr) (q : List Predictor) : (State.start p g q).acc = [] := rfl

/-- `setReg` changes no field but the registers; it has three branches, so this is by cases and not by rfl. -/
theorem State.setReg_eq (s : State) (i : Nat) (v : Word) : ∃ g, s.setReg i v = { s with regs := g } := by
  unfold State.setReg
  split
  · exact ⟨s.regs, rfl⟩
  · split
    · exact ⟨_, rfl⟩
    · exact ⟨s.regs, rfl⟩

@[simp] theorem State.setReg_params (s : State) (i : Nat) (v : Word) : (s.setReg i v).params = s.params := by
  obtain ⟨g, h⟩ := s.setReg_eq i v; rw [h]
@[simp] theorem State.setReg_prog (s : State) (i : Nat) (v : Word) : (s.setReg i v).prog = s.prog := by
  obtain ⟨g, h⟩ := s.setReg_eq i v; rw [h]
@[simp] theorem State.setReg_preds (s : State) (i : Nat) (v : Word) : (s.setReg i v).preds = s.preds := by
  obtain ⟨g, h⟩ := s.setReg_eq i v; rw [h]
@[simp] theorem State.setReg_pc (s : State) (i : Nat) (v : Word) : (s.setReg i v).pc = s.pc := by
  obtain ⟨g, h⟩ := s.setReg_eq i v; rw [h]
@[simp] theorem State.setReg_status (s : State) (i : Nat) (v : Word) : (s.setReg i v).status = s.status := by
  obtain ⟨g, h⟩ := s.setReg_eq i v; rw [h]
@[simp] theorem State.setReg_acc (s : State) (i : Nat) (v : Word) : (s.setReg i v).acc = s.acc := by
  obtain ⟨g, h⟩ := s.setReg_eq i v; rw [h]

/-- Two states with the same registers read alike. -/
theorem State.reg_congr {s t : State} (h : s.regs = t.regs) (i : Nat) : s.reg i = t.reg i := by
  simp only [State.reg, h]

/-- Two states with the same accuracy table have the same records. -/
theorem State.record_congr {s t : State} (h : s.acc = t.acc) (id : String) (site : Nat) :
    s.record id site = t.record id site := by simp only [State.record, h]

@[simp] theorem State.reg_zero (s : State) : s.reg 0 = 0 := by simp [State.reg]

/-- R22: what a register reads as after a write of an index in range. -/
theorem State.reg_setReg (s : State) (i j : Nat) (v : Word) (hi : i < 32) :
    (s.setReg i v).reg j = if j = 0 then 0 else if j = i then v else s.reg j := by
  rcases Nat.eq_zero_or_pos j with rfl | hj
  · simp
  rcases Nat.eq_zero_or_pos i with rfl | hpos
  · simp [State.setReg, Nat.ne_of_gt hj]
  have h31 : i - 1 < 31 := by omega
  simp only [State.setReg, State.reg, Nat.ne_of_gt hj, Nat.ne_of_gt hpos, h31, if_false, dif_pos]
  by_cases hji : j = i
  · subst hji; simp [h31]
  · by_cases hj31 : j - 1 < 31
    · have : i - 1 ≠ j - 1 := by omega
      simp [hj31, hji, this]
    · simp [hj31, hji]

end Sys2Proof.Machine
end

