-- ==== Sys2Proof/Laws/Table.lean ====
section
/-! SUPPORT. The laws of the finite maps: a read after a write, the canonical form is kept, and canonical maps with the same
reads are equal. -/

namespace Sys2Proof.Machine

variable {κ ν : Type}

/-- A read of the key just written gives the value written. -/
theorem tableGet_tableSet_same [DecidableEq κ] [LT κ] [DecidableLT κ] (t : Table κ ν) (k : κ) (v : ν) :
    tableGet (tableSet t k v) k = some v := by
  induction t with
  | nil => simp [tableSet, tableGet]
  | cons e rest ih =>
    obtain ⟨k', v'⟩ := e
    simp only [tableSet]
    split
    · simp [tableGet]
    · split
      · simp [tableGet]
      · rename_i h _; simp [tableGet, h, ih]

/-- A write leaves every other key alone. -/
theorem tableGet_tableSet_other [DecidableEq κ] [LT κ] [DecidableLT κ] (t : Table κ ν) {k j : κ} (v : ν) (h : j ≠ k) :
    tableGet (tableSet t k v) j = tableGet t j := by
  induction t with
  | nil => simp [tableSet, tableGet, Ne.symm h]
  | cons e rest ih =>
    obtain ⟨k', v'⟩ := e
    simp only [tableSet]
    split
    · rename_i hk; subst hk; simp [tableGet, Ne.symm h]
    · split
      · simp [tableGet, Ne.symm h]
      · simp [tableGet, ih]

/-- The entries of a table after a write are the entry written and entries it had. -/
theorem mem_tableSet [DecidableEq κ] [LT κ] [DecidableLT κ] {t : Table κ ν} {k : κ} {v : ν} {e : κ × ν}
    (h : e ∈ tableSet t k v) : e = (k, v) ∨ e ∈ t := by
  induction t with
  | nil => simpa [tableSet] using h
  | cons x rest ih =>
    obtain ⟨k', v'⟩ := x
    simp only [tableSet] at h
    split at h
    · simp only [List.mem_cons] at h ⊢; tauto
    · split at h
      · simp only [List.mem_cons] at h ⊢; tauto
      · simp only [List.mem_cons] at h ⊢
        rcases h with h | h
        · tauto
        · rcases ih h with h | h <;> tauto

/-- A written table is not empty. -/
theorem tableSet_ne_nil [DecidableEq κ] [LT κ] [DecidableLT κ] (t : Table κ ν) (k : κ) (v : ν) : tableSet t k v ≠ [] := by
  cases t with
  | nil => simp [tableSet]
  | cons e rest => obtain ⟨k', v'⟩ := e; simp only [tableSet]; split <;> [simp; (split <;> simp)]

/-- What a table reads is one of its entries. -/
theorem mem_of_tableGet [DecidableEq κ] {t : Table κ ν} {k : κ} {v : ν} (h : tableGet t k = some v) : (k, v) ∈ t := by
  induction t with
  | nil => simp [tableGet] at h
  | cons e rest ih =>
    obtain ⟨k', v'⟩ := e
    simp only [tableGet] at h
    split at h
    · rename_i hk; subst hk; simp at h; simp [h]
    · exact List.mem_cons_of_mem _ (ih h)

/-- Every write keeps the canonical form. -/
theorem tableSorted_tableSet [LinearOrder κ] {t : Table κ ν} (h : TableSorted t) (k : κ) (v : ν) :
    TableSorted (tableSet t k v) := by
  induction t with
  | nil => simp [tableSet]
  | cons e rest ih =>
    obtain ⟨k', v'⟩ := e
    obtain ⟨hlt, hrest⟩ := List.pairwise_cons.mp h
    simp only [tableSet]
    split
    · rename_i hk; subst hk; exact List.pairwise_cons.mpr ⟨fun x hx => hlt x hx, hrest⟩
    · rename_i hne
      split
      · rename_i hkk
        refine List.pairwise_cons.mpr ⟨fun x hx => ?_, h⟩
        rcases List.mem_cons.mp hx with rfl | hx
        · exact hkk
        · exact lt_trans hkk (hlt x hx)
      · rename_i hkk
        refine List.pairwise_cons.mpr ⟨fun x hx => ?_, ih hrest⟩
        rcases mem_tableSet hx with rfl | hx
        · exact lt_of_le_of_ne (not_lt.mp hkk) hne
        · exact hlt x hx

/-- A canonical table reads an entry of its own at the entry's key. -/
theorem tableGet_of_mem [LinearOrder κ] {t : Table κ ν} (h : TableSorted t) {k : κ} {v : ν} (hm : (k, v) ∈ t) :
    tableGet t k = some v := by
  induction t with
  | nil => simp at hm
  | cons e rest ih =>
    obtain ⟨k', v'⟩ := e
    obtain ⟨hlt, hrest⟩ := List.pairwise_cons.mp h
    simp only [tableGet]
    rcases List.mem_cons.mp hm with heq | hm
    · simp at heq; simp [heq]
    · have : k' ≠ k := ne_of_lt (hlt _ hm)
      simp [this, ih hrest hm]

/-- Canonical tables with the same reads are the same list: the form is canonical. -/
theorem table_ext [LinearOrder κ] {t u : Table κ ν} (ht : TableSorted t) (hu : TableSorted u)
    (h : ∀ k, tableGet t k = tableGet u k) : t = u := by
  have sub : ∀ {a b : Table κ ν}, TableSorted a → (∀ k, tableGet a k = tableGet b k) → ∀ e ∈ a, e ∈ b := by
    intro a b ha hab e he
    obtain ⟨k, v⟩ := e
    exact mem_of_tableGet ((hab k) ▸ tableGet_of_mem ha he)
  have nd : ∀ {a : Table κ ν}, TableSorted a → a.Nodup :=
    fun ha => List.Pairwise.imp (fun {x y} (hxy : x.1 < y.1) (heq : x = y) => lt_irrefl x.1 (heq ▸ hxy)) ha
  have perm : t.Perm u :=
    (List.perm_ext_iff_of_nodup (nd ht) (nd hu)).mpr fun e => ⟨sub ht h e, sub hu (fun k => (h k).symm) e⟩
  exact List.Perm.eq_of_pairwise (fun a b _ _ hab hba => absurd (lt_trans hab hba) (lt_irrefl _)) ht hu perm

/-- Writes of two different keys commute on a canonical table. -/
theorem tableSet_comm [LinearOrder κ] {t : Table κ ν} (h : TableSorted t) {j k : κ} (v w : ν) (hne : j ≠ k) :
    tableSet (tableSet t j v) k w = tableSet (tableSet t k w) j v := by
  refine table_ext (tableSorted_tableSet (tableSorted_tableSet h _ _) _ _)
    (tableSorted_tableSet (tableSorted_tableSet h _ _) _ _) fun x => ?_
  by_cases hj : x = j
  · subst hj
    rw [tableGet_tableSet_other _ _ hne, tableGet_tableSet_same, tableGet_tableSet_same]
  · by_cases hk : x = k
    · subst hk
      rw [tableGet_tableSet_same, tableGet_tableSet_other _ _ hj, tableGet_tableSet_same]
    · rw [tableGet_tableSet_other _ _ hk, tableGet_tableSet_other _ _ hj, tableGet_tableSet_other _ _ hj,
        tableGet_tableSet_other _ _ hk]

end Sys2Proof.Machine
end

