-- ==== Sys2Proof/Laws/Ops.lean ====
section
/-! SUPPORT. What the shared operations on registers, labels and operands can answer, said once each. -/

namespace Sys2Proof.Machine

theorem readReg_ok {s : State} {i : Nat} (h : i < 32) : readReg s i = .ok (s.reg i) := by
  simp [readReg, Config.numRegs, Nat.not_le.mpr h]

theorem readReg_error {s : State} {i : Nat} (h : 32 ≤ i) : readReg s i = .error (.registerIndexOutOfRange s.pc i) := by
  simp [readReg, Config.numRegs, h]

theorem writeReg_ok {s : State} {i : Nat} (v : Word) (h : i < 32) : writeReg s i v = .ok (s.setReg i v) := by
  simp [writeReg, Config.numRegs, Nat.not_le.mpr h]

theorem writeReg_error {s : State} {i : Nat} (v : Word) (h : 32 ≤ i) :
    writeReg s i v = .error (.registerIndexOutOfRange s.pc i) := by
  simp [writeReg, Config.numRegs, h]

/-- `readTwo` reads both registers, or reports the first index out of range (R226). -/
theorem readTwo_cases (s : State) (a b : Nat) :
    (a < 32 ∧ b < 32 ∧ readTwo s a b = .ok (s.reg a, s.reg b)) ∨
    (32 ≤ a ∧ readTwo s a b = .error (.registerIndexOutOfRange s.pc a)) ∨
    (a < 32 ∧ 32 ≤ b ∧ readTwo s a b = .error (.registerIndexOutOfRange s.pc b)) := by
  rcases Nat.lt_or_ge a 32 with ha | ha
  · rcases Nat.lt_or_ge b 32 with hb | hb
    · exact .inl ⟨ha, hb, by simp [readTwo, readReg_ok ha, readReg_ok hb]⟩
    · exact .inr (.inr ⟨ha, hb, by simp [readTwo, readReg_ok ha, readReg_error hb]⟩)
  · exact .inr (.inl ⟨ha, by simp [readTwo, readReg_error ha]⟩)

/-- `writeAdvance` writes the destination and advances, or reports an index out of range. -/
theorem writeAdvance_cases (s : State) (d : Nat) (v : Word) :
    (d < 32 ∧ writeAdvance s d v = .ok (s.setReg d v).advance) ∨
    (32 ≤ d ∧ writeAdvance s d v = .error (.registerIndexOutOfRange s.pc d)) := by
  rcases Nat.lt_or_ge d 32 with hd | hd
  · exact .inl ⟨hd, by simp [writeAdvance, writeReg_ok v hd]⟩
  · exact .inr ⟨hd, by simp [writeAdvance, writeReg_error v hd]⟩

/-- `binaryOp` writes the combination of the two sources and advances, or reports an index out of range of its own
operands. -/
theorem binaryOp_cases (f : Word → Word → Word) (d a b : Nat) (s : State) :
    (d < 32 ∧ a < 32 ∧ b < 32 ∧ binaryOp f d a b s = .ok (s.setReg d (f (s.reg a) (s.reg b))).advance) ∨
    ∃ i, 32 ≤ i ∧ i ∈ [a, b, d] ∧ binaryOp f d a b s = .error (.registerIndexOutOfRange s.pc i) := by
  rcases readTwo_cases s a b with ⟨ha, hb, h⟩ | ⟨ha, h⟩ | ⟨_, hb, h⟩
  · rcases writeAdvance_cases s d (f (s.reg a) (s.reg b)) with ⟨hd, hw⟩ | ⟨hd, hw⟩
    · exact .inl ⟨hd, ha, hb, by simp [binaryOp, h, hw]⟩
    · exact .inr ⟨d, hd, by simp, by simp [binaryOp, h, hw]⟩
  · exact .inr ⟨a, ha, by simp, by simp [binaryOp, h]⟩
  · exact .inr ⟨b, hb, by simp, by simp [binaryOp, h]⟩

/-- The scan from position `n` on finds the first `Label` of the name, counted from `n`. -/
theorem findLabel_eq_some {name : String} {prog : List Instr} {n k : Nat} :
    findLabel name prog n = some k ↔
      ∃ m, k = n + m ∧ prog[m]? = some (Instr.label name) ∧ ∀ l : Nat, l < m → prog[l]? ≠ some (Instr.label name) := by
  induction prog generalizing n with
  | nil => simp [findLabel]
  | cons i rest ih =>
    simp only [findLabel]
    split
    · rename_i hi
      subst hi
      constructor
      · intro h
        simp at h
        exact ⟨0, by omega, by simp, fun l hl => absurd hl (Nat.not_lt_zero l)⟩
      · rintro ⟨m, rfl, hm, hfirst⟩
        cases m with
        | zero => simp
        | succ m => exact absurd rfl (hfirst 0 (Nat.succ_pos m))
    · rename_i hi
      rw [ih]
      constructor
      · rintro ⟨m, rfl, hm, hfirst⟩
        refine ⟨m + 1, by omega, by simpa using hm, fun l hl => ?_⟩
        cases l with
        | zero => simpa using hi
        | succ l => simpa using hfirst l (by omega)
      · rintro ⟨m, rfl, hm, hfirst⟩
        cases m with
        | zero => simp [hi] at hm
        | succ m => exact ⟨m, by omega, by simpa using hm, fun l hl => by simpa using hfirst (l + 1) (by omega)⟩

/-- The scan finds nothing exactly where no `Label` carries the name. -/
theorem findLabel_eq_none {name : String} {prog : List Instr} {n : Nat} :
    findLabel name prog n = none ↔ Instr.label name ∉ prog := by
  induction prog generalizing n with
  | nil => simp [findLabel]
  | cons i rest ih =>
    simp only [findLabel]
    split
    · rename_i hi; simp [hi]
    · rename_i hi; simp [ih, Ne.symm hi]

/-- What `resolve` can answer (R150): a position that holds the `Label`, or UnresolvedLabel where there is none. -/
theorem resolve_cases (s : State) (name : String) :
    (∃ k, resolve s name = .ok k ∧ s.prog[k]? = some (Instr.label name) ∧
      ∀ l : Nat, l < k → s.prog[l]? ≠ some (Instr.label name)) ∨
    (resolve s name = .error (.unresolvedLabel s.pc name) ∧ s.Undeclared name) := by
  unfold resolve
  cases h : findLabel name s.prog 0 with
  | none =>
    refine .inr ⟨rfl, fun k hk => ?_⟩
    exact findLabel_eq_none.mp h (List.mem_of_getElem? hk)
  | some k =>
    obtain ⟨m, rfl, hm, hfirst⟩ := findLabel_eq_some.mp h
    exact .inl ⟨_, rfl, by simpa using hm, by simpa using hfirst⟩

/-- A label at one known position resolves to it. -/
theorem resolve_labelAt {s : State} {name : String} {k : Nat} (h : s.LabelAt name k) : resolve s name = .ok k := by
  rcases resolve_cases s name with ⟨m, hm, hlabel, _⟩ | ⟨_, hno⟩
  · rw [hm, h.2 m hlabel]
  · exact absurd h.1 (hno k)

/-- A name is undeclared exactly where no `Label` of it stands in the program. -/
theorem undeclared_iff {s : State} {name : String} : s.Undeclared name ↔ Instr.label name ∉ s.prog := by
  constructor
  · intro h hm
    obtain ⟨k, hk⟩ := List.mem_iff_getElem?.mp hm
    exact h k hk
  · intro h k hk
    exact h (List.mem_of_getElem? hk)

/-- An undeclared label does not resolve. -/
theorem resolve_undeclared {s : State} {name : String} (h : s.Undeclared name) :
    resolve s name = .error (.unresolvedLabel s.pc name) := by
  rcases resolve_cases s name with ⟨m, _, hlabel, _⟩ | ⟨hr, _⟩
  · exact absurd hlabel (h m)
  · exact hr

/-- A position that holds a declared name is where the name stands among the declared names, so in an admitted program a
name has one position. -/
theorem labelAt_of_nodup {s : State} {name : String} {k : Nat} (hn : (declaredNames s.prog).Nodup)
    (hk : s.prog[k]? = some (Instr.label name)) : s.LabelAt name k := by
  refine ⟨hk, fun m hm => ?_⟩
  revert hn hk hm
  generalize s.prog = prog
  induction prog generalizing k m with
  | nil => simp
  | cons i rest ih =>
    intro hn hk hm
    have split : declaredNames (i :: rest) = i.declares ++ declaredNames rest := rfl
    rw [split, List.nodup_append] at hn
    have inRest : ∀ {l : Nat}, rest[l]? = some (Instr.label name) → name ∈ declaredNames rest := fun h =>
      List.mem_flatMap.mpr ⟨_, List.mem_of_getElem? h, by simp [Instr.declares]⟩
    cases k with
    | zero =>
      cases m with
      | zero => rfl
      | succ m =>
        simp at hk
        exact absurd rfl (hn.2.2 name (by simp [hk, Instr.declares]) name (inRest (by simpa using hm)))
    | succ k =>
      cases m with
      | zero =>
        simp at hm
        exact absurd rfl (hn.2.2 name (by simp [hm, Instr.declares]) name (inRest (by simpa using hk)))
      | succ m => exact congrArg Nat.succ (ih m hn.2.1 (by simpa using hk) (by simpa using hm))

end Sys2Proof.Machine
end

