-- ==== Sys2Proof/Laws/Predictors.lean ====
section
/-! SUPPORT. What a query, an accumulation and the whole branch-resolve protocol do, said once each by reads. -/

namespace Sys2Proof.Machine

/-- The record at a pair, read from a table alone. -/
def recordIn (acc : AccuracyTable) (id : String) (site : Nat) : Option Accuracy :=
  match tableGet acc id with
  | none => none
  | some sites => tableGet sites site

theorem State.record_eq (s : State) (id : String) (site : Nat) : s.record id site = recordIn s.acc id site := rfl

theorem recordIn_eq (acc : AccuracyTable) (id : String) (site : Nat) :
    recordIn acc id site = tableGet ((tableGet acc id).getD []) site := by
  unfold recordIn
  cases tableGet acc id <;> rfl

/-- R108: the record accumulated to has one more query, and a match counted if there was one. -/
theorem recordIn_accumulate_same (acc : AccuracyTable) (id : String) (site : Nat) (m : Bool) :
    recordIn (accumulate acc id site m) id site = some (scoreRecord (recordIn acc id site) m) := by
  rw [recordIn_eq, accumulate, tableGet_tableSet_same, Option.getD_some, tableGet_tableSet_same, ← recordIn_eq]

/-- R108: no other record changes. -/
theorem recordIn_accumulate_other (acc : AccuracyTable) (id : String) (site : Nat) (m : Bool) {id' : String} {site' : Nat}
    (h : id' ≠ id ∨ site' ≠ site) : recordIn (accumulate acc id site m) id' site' = recordIn acc id' site' := by
  rw [recordIn_eq, recordIn_eq, accumulate]
  by_cases hid : id' = id
  · subst hid
    have hsite : site' ≠ site := h.resolve_left (fun hne => hne rfl)
    rw [tableGet_tableSet_same, Option.getD_some, tableGet_tableSet_other _ _ hsite]
  · rw [tableGet_tableSet_other _ _ hid]

/-- Accumulations for two different identities commute on a canonical table (R109). -/
theorem accumulate_comm {acc : AccuracyTable} (h : TableSorted acc) {id id' : String} (site site' : Nat) (m m' : Bool)
    (hne : id ≠ id') :
    accumulate (accumulate acc id site m) id' site' m' = accumulate (accumulate acc id' site' m') id site m := by
  unfold accumulate
  rw [tableGet_tableSet_other _ _ (Ne.symm hne), tableGet_tableSet_other _ _ hne]
  exact tableSet_comm h _ _ hne

/-- An accumulation keeps the accuracy table canonical. -/
theorem accumulate_canonical {acc : AccuracyTable} (h : TableSorted acc) (hin : ∀ e ∈ acc, e.2 ≠ [] ∧ TableSorted e.2)
    (id : String) (site : Nat) (m : Bool) :
    TableSorted (accumulate acc id site m) ∧ ∀ e ∈ accumulate acc id site m, e.2 ≠ [] ∧ TableSorted e.2 := by
  refine ⟨tableSorted_tableSet h _ _, fun e he => ?_⟩
  rcases mem_tableSet he with rfl | he
  · refine ⟨tableSet_ne_nil _ _ _, tableSorted_tableSet ?_ _ _⟩
    cases hg : tableGet acc id with
    | none => simp
    | some sites => exact (hin _ (mem_of_tableGet hg)).2
  · exact hin e he

/-- The predictors after the protocol: each updated once, in place (R107). -/
theorem queryAll_preds (h : Hart) (target : Nat) (o : Bool) (ps : List Predictor) (acc : AccuracyTable) :
    (queryAll h target o ps acc).1 = ps.map fun p => { p with strategy := update p.strategy h.pc o } := by
  induction ps generalizing acc with
  | nil => rfl
  | cons p ps ih => simp [queryAll, query, ih]

/-- The accuracy table after the protocol: one accumulation a predictor, in registration order (R106). -/
theorem queryAll_acc (h : Hart) (target : Nat) (o : Bool) (ps : List Predictor) (acc : AccuracyTable) :
    (queryAll h target o ps acc).2 =
      ps.foldl (fun acc p => accumulate acc p.id h.pc (predict p.strategy h.pc target == o)) acc := by
  induction ps generalizing acc with
  | nil => rfl
  | cons p ps ih => simp [queryAll, query, ih]

/-- A record no registered predictor owns, or of another site, is left alone. -/
theorem queryAll_record_other (h : Hart) (target : Nat) (o : Bool) (ps : List Predictor) (acc : AccuracyTable)
    {id : String} {site : Nat} (hne : id ∉ ps.map Predictor.id ∨ site ≠ h.pc) :
    recordIn (queryAll h target o ps acc).2 id site = recordIn acc id site := by
  induction ps generalizing acc with
  | nil => rfl
  | cons p ps ih =>
    simp only [List.map_cons, List.mem_cons, not_or] at hne
    simp only [queryAll, query]
    rw [ih _ (hne.imp And.right (fun x => x)), recordIn_accumulate_other _ _ _ _ (hne.imp And.left (fun x => x))]

/-- A registered predictor's record at the branch is scored once, if identities are distinct. -/
theorem queryAll_record_same (h : Hart) (target : Nat) (o : Bool) (ps : List Predictor) (acc : AccuracyTable)
    (hn : (ps.map Predictor.id).Nodup) {p : Predictor} (hp : p ∈ ps) :
    recordIn (queryAll h target o ps acc).2 p.id h.pc =
      some (scoreRecord (recordIn acc p.id h.pc) (predict p.strategy h.pc target == o)) := by
  induction ps generalizing acc with
  | nil => simp at hp
  | cons q ps ih =>
    obtain ⟨hq, hps⟩ := List.nodup_cons.mp hn
    simp only [queryAll, query]
    rcases List.mem_cons.mp hp with rfl | hp
    · rw [queryAll_record_other _ _ _ _ _ (.inl hq), recordIn_accumulate_same]
    · have : p.id ≠ q.id := fun he => hq (he ▸ List.mem_map_of_mem hp)
      rw [ih _ hps hp, recordIn_accumulate_other _ _ _ _ (.inl this)]

/-- The protocol keeps the accuracy table canonical. -/
theorem queryAll_canonical (h : Hart) (target : Nat) (o : Bool) (ps : List Predictor) {acc : AccuracyTable}
    (hs : TableSorted acc) (hin : ∀ e ∈ acc, e.2 ≠ [] ∧ TableSorted e.2) :
    TableSorted (queryAll h target o ps acc).2 ∧ ∀ e ∈ (queryAll h target o ps acc).2, e.2 ≠ [] ∧ TableSorted e.2 := by
  induction ps generalizing acc with
  | nil => exact ⟨hs, hin⟩
  | cons p ps ih =>
    obtain ⟨hs', hin'⟩ := accumulate_canonical hs hin p.id h.pc (predict p.strategy h.pc target == o)
    exact ih hs' hin'

@[simp] theorem State.hart_pc (s : State) : s.hart.pc = s.pc := rfl

/-- The hart's registers are the state's. -/
theorem State.hart_x (s : State) (i : Nat) (hi : i < 32) : s.hart.x[i] = s.reg i := by simp [State.hart]

@[simp] theorem branchResolve_params (s : State) (k : Nat) (o : Bool) : (branchResolve s k o).params = s.params := by
  unfold branchResolve; split <;> rfl
@[simp] theorem branchResolve_prog (s : State) (k : Nat) (o : Bool) : (branchResolve s k o).prog = s.prog := by
  unfold branchResolve; split <;> rfl
@[simp] theorem branchResolve_regs (s : State) (k : Nat) (o : Bool) : (branchResolve s k o).regs = s.regs := by
  unfold branchResolve; split <;> rfl
@[simp] theorem branchResolve_status (s : State) (k : Nat) (o : Bool) : (branchResolve s k o).status = s.status := by
  unfold branchResolve; split <;> rfl
@[simp] theorem branchResolve_pc (s : State) (k : Nat) (o : Bool) :
    (branchResolve s k o).pc = if o then k else s.pc + 1 := by
  unfold branchResolve; split <;> rfl
@[simp] theorem branchResolve_preds (s : State) (k : Nat) (o : Bool) :
    (branchResolve s k o).preds = s.preds.map fun p => { p with strategy := update p.strategy s.pc o } := by
  rw [show (branchResolve s k o).preds = (queryAll s.hart k o s.preds s.acc).1 by unfold branchResolve; split <;> rfl,
    queryAll_preds]
  rfl
theorem branchResolve_acc (s : State) (k : Nat) (o : Bool) :
    (branchResolve s k o).acc = (queryAll s.hart k o s.preds s.acc).2 := by
  unfold branchResolve; split <;> rfl

/-- A registered predictor's record at the branch after the protocol (R106 to R108). -/
theorem branchResolve_record_same {s : State} (k : Nat) (o : Bool) (hn : (s.preds.map Predictor.id).Nodup) {p : Predictor}
    (hp : p ∈ s.preds) :
    (branchResolve s k o).record p.id s.pc =
      some (scoreRecord (s.record p.id s.pc) (predict p.strategy s.pc k == o)) := by
  rw [State.record_eq, branchResolve_acc]
  exact queryAll_record_same s.hart k o s.preds s.acc hn hp

/-- Every other record after the protocol. -/
theorem branchResolve_record_other (s : State) (k : Nat) (o : Bool) {id : String} {site : Nat}
    (h : id ∉ s.preds.map Predictor.id ∨ site ≠ s.pc) : (branchResolve s k o).record id site = s.record id site := by
  rw [State.record_eq, branchResolve_acc]
  exact queryAll_record_other s.hart k o s.preds s.acc h

/-- An update keeps the variant. -/
theorem update_variant (st : Strategy) (site : Nat) (o : Bool) : (update st site o).variant = st.variant := by
  cases st <;> rfl

@[simp] theorem Strategy.visited_oneBit (t : Table Nat OneBit) (site : Nat) :
    (Strategy.oneBit t).visited site = (tableGet t site).isSome := by simp [Strategy.visited, Strategy.entry]
@[simp] theorem Strategy.visited_twoBit (t : Table Nat TwoBit) (site : Nat) :
    (Strategy.twoBit t).visited site = (tableGet t site).isSome := by simp [Strategy.visited, Strategy.entry]

/-- An update leaves the entries of other sites alone (R202). -/
theorem update_entry_other (st : Strategy) (site : Nat) (o : Bool) {site' : Nat} (h : site' ≠ site) :
    (update st site o).entry site' = st.entry site' := by
  cases st <;> simp [update, Strategy.entry, tableGet_tableSet_other _ _ h]

/-- What a strategy predicts at a site is a function of its variant, its entry for that site and the target. -/
theorem predict_congr {st st' : Strategy} {site : Nat} (hv : st.variant = st'.variant) (he : st.entry site = st'.entry site)
    (target : Nat) : predict st site target = predict st' site target := by
  cases st <;> cases st' <;> simp [Strategy.variant] at hv <;> simp only [predict]
  all_goals
    simp only [Strategy.entry] at he
    first
      | rw [oneBitAt, oneBitAt, Option.map_injective Sum.inl_injective he]
      | rw [twoBitAt, twoBitAt, Option.map_injective Sum.inr_injective he]

/-- A counter's entry for the site of a query is there after it, and an entry is never removed (R202). -/
theorem update_visited (st : Strategy) (site : Nat) (o : Bool) (site' : Nat) :
    (update st site o).visited site' = (st.visited site' || (st.isCounter && decide (site' = site))) := by
  by_cases h : site' = site
  · subst h
    cases st <;> simp [update, Strategy.visited, Strategy.entry, Strategy.isCounter, tableGet_tableSet_same]
  · simp [Strategy.visited, update_entry_other st site o h, h]

/-- An update keeps a strategy's table canonical. -/
theorem update_canonical {st : Strategy} (h : st.Canonical) (site : Nat) (o : Bool) : (update st site o).Canonical := by
  cases st <;> first | trivial | exact tableSorted_tableSet h _ _

end Sys2Proof.Machine
end

