-- ==== Sys2Proof/Laws/Exec.lean ====
section
/-! SUPPORT. What an instruction, an admission check and a step can do, said once each: later proofs split on these lemmas
and do not unfold exec or step. -/

namespace Sys2Proof.Machine

/-- Where an instruction's answer comes from: its effect, or the fatal condition taken. -/
theorem conclude_cases {s t : State} {r : Except FaultReport State} (h : conclude s r = .next t) :
    r = .ok t ∨ ∃ e, r = .error e ∧ t = s.raise e := by
  cases r with
  | ok u => simp [conclude] at h; exact .inl (by rw [h])
  | error e => simp [conclude] at h; exact .inr ⟨e, rfl, h.symm⟩

/-- Every instruction answers a next state. -/
theorem exec_next (i : Instr) (s : State) : ∃ t, exec i s = .next t := by
  have hc : ∀ r, ∃ t, conclude s r = .next t := fun r => by cases r <;> exact ⟨_, rfl⟩
  cases i <;> first | exact hc _ | exact ⟨_, rfl⟩

/-- Everything an instruction can do: write one register and advance, move the pc, run the branch-resolve protocol towards a
label, halt, or take a fatal condition whose report carries the pc. -/
theorem exec_cases {i : Instr} {s t : State} (h : exec i s = .next t) :
    (∃ d v a b imm, (i = .add d a b ∨ i = .sub d a b ∨ i = .addi d a imm) ∧ d < 32 ∧ t = (s.setReg d v).advance) ∨
    (∃ n k, i = .j n ∧ resolve s n = .ok k ∧ t = s.jumpTo k) ∨
    (∃ n, i = .label n ∧ t = s.advance) ∨
    (∃ a b n k, (i = .bge a b n ∧ t = branchResolve s k (outcomeGE (s.reg a) (s.reg b)) ∨
        i = .bne a b n ∧ t = branchResolve s k (outcomeNE (s.reg a) (s.reg b))) ∧ resolve s n = .ok k) ∨
    (i = .finish ∧ t = s.halt) ∨
    (∃ n, t = s.raise (.unresolvedLabel s.pc n) ∧ n ∈ i.refersTo ∧ s.Undeclared n) ∨
    (∃ k, t = s.raise (.registerIndexOutOfRange s.pc k) ∧ k ∈ i.registers ∧ 32 ≤ k) := by
  have binary : ∀ {f : Word → Word → Word} {d a b : Nat}, conclude s (binaryOp f d a b s) = .next t →
      (∃ v, d < 32 ∧ t = (s.setReg d v).advance) ∨
      ∃ k, t = s.raise (.registerIndexOutOfRange s.pc k) ∧ k ∈ [d, a, b] ∧ 32 ≤ k := by
    intro f d a b h
    rcases binaryOp_cases f d a b s with ⟨hd, _, _, hb⟩ | ⟨k, hk, hm, hb⟩
    · rw [hb] at h; simp [conclude] at h
      exact .inl ⟨_, hd, h.symm⟩
    · rw [hb] at h; simp [conclude] at h
      refine .inr ⟨k, h.symm, ?_, hk⟩
      simp only [List.mem_cons, List.not_mem_nil, or_false] at hm ⊢; tauto
  have branch : ∀ {f : Word → Word → Bool} {a b : Nat} {n : String}, conclude s (branchOn f a b n s) = .next t →
      (∃ k, t = branchResolve s k (f (s.reg a) (s.reg b)) ∧ resolve s n = .ok k) ∨
      (t = s.raise (.unresolvedLabel s.pc n) ∧ s.Undeclared n) ∨
      ∃ k, t = s.raise (.registerIndexOutOfRange s.pc k) ∧ k ∈ [a, b] ∧ 32 ≤ k := by
    intro f a b n h
    rcases resolve_cases s n with ⟨k, hk, _⟩ | ⟨hu, hno⟩
    · rcases readTwo_cases s a b with ⟨_, _, hr⟩ | ⟨ha, hr⟩ | ⟨_, hb, hr⟩ <;>
        simp [branchOn, hk, hr, conclude] at h
      · exact .inl ⟨k, h.symm, hk⟩
      · exact .inr (.inr ⟨a, h.symm, by simp, ha⟩)
      · exact .inr (.inr ⟨b, h.symm, by simp, hb⟩)
    · simp [branchOn, hu, conclude] at h
      exact .inr (.inl ⟨h.symm, hno⟩)
  cases i with
  | add d a b =>
    rcases binary h with ⟨v, hd, ht⟩ | ⟨k, ht, hk, hle⟩
    · exact .inl ⟨d, v, a, b, 0, .inl rfl, hd, ht⟩
    · exact .inr (.inr (.inr (.inr (.inr (.inr ⟨k, ht, hk, hle⟩)))))
  | sub d a b =>
    rcases binary h with ⟨v, hd, ht⟩ | ⟨k, ht, hk, hle⟩
    · exact .inl ⟨d, v, a, b, 0, .inr (.inl rfl), hd, ht⟩
    · exact .inr (.inr (.inr (.inr (.inr (.inr ⟨k, ht, hk, hle⟩)))))
  | addi d a imm =>
    simp only [exec, execAddi] at h
    rcases Nat.lt_or_ge a 32 with ha | ha
    · rcases writeAdvance_cases s d (s.reg a + sext64 imm) with ⟨hd, hw⟩ | ⟨hd, hw⟩ <;>
        simp [readReg_ok ha, hw, conclude] at h
      · exact .inl ⟨d, _, a, 0, imm, .inr (.inr rfl), hd, h.symm⟩
      · exact .inr (.inr (.inr (.inr (.inr (.inr ⟨d, h.symm, by simp [Instr.registers], hd⟩)))))
    · simp [readReg_error ha, conclude] at h
      exact .inr (.inr (.inr (.inr (.inr (.inr ⟨a, h.symm, by simp [Instr.registers], ha⟩)))))
  | j n =>
    simp only [exec, execJ] at h
    rcases resolve_cases s n with ⟨k, hk, _⟩ | ⟨hu, hno⟩
    · simp [hk, conclude] at h
      exact .inr (.inl ⟨n, k, rfl, hk, h.symm⟩)
    · simp [hu, conclude] at h
      exact .inr (.inr (.inr (.inr (.inr (.inl ⟨n, h.symm, by simp [Instr.refersTo], hno⟩)))))
  | bge a b n =>
    rcases branch h with ⟨k, ht, hk⟩ | ⟨ht, hno⟩ | ⟨k, ht, hk, hle⟩
    · exact .inr (.inr (.inr (.inl ⟨a, b, n, k, .inl ⟨rfl, ht⟩, hk⟩)))
    · exact .inr (.inr (.inr (.inr (.inr (.inl ⟨n, ht, by simp [Instr.refersTo], hno⟩)))))
    · exact .inr (.inr (.inr (.inr (.inr (.inr ⟨k, ht, hk, hle⟩)))))
  | bne a b n =>
    rcases branch h with ⟨k, ht, hk⟩ | ⟨ht, hno⟩ | ⟨k, ht, hk, hle⟩
    · exact .inr (.inr (.inr (.inl ⟨a, b, n, k, .inr ⟨rfl, ht⟩, hk⟩)))
    · exact .inr (.inr (.inr (.inr (.inr (.inl ⟨n, ht, by simp [Instr.refersTo], hno⟩)))))
    · exact .inr (.inr (.inr (.inr (.inr (.inr ⟨k, ht, hk, hle⟩)))))
  | finish => simp [exec, execFinish] at h; exact .inr (.inr (.inr (.inr (.inl ⟨rfl, h.symm⟩))))
  | label n => simp [exec, execLabel] at h; exact .inr (.inr (.inl ⟨n, rfl, h.symm⟩))

/-- The first repeated member is there exactly where the list has one. -/
theorem firstRepeat_eq_none {α : Type} [DecidableEq α] {l : List α} : firstRepeat l = none ↔ l.Nodup := by
  induction l with
  | nil => simp [firstRepeat]
  | cons a rest ih =>
    simp only [firstRepeat, List.nodup_cons]
    split
    · rename_i h; simp [h]
    · rename_i h; simp [h, ih]

/-- What `firstRepeat` reports stands at two positions of the list. -/
theorem firstRepeat_some {α : Type} [DecidableEq α] {l : List α} {a : α} (h : firstRepeat l = some a) : 2 ≤ l.count a := by
  induction l with
  | nil => simp [firstRepeat] at h
  | cons b rest ih =>
    simp only [firstRepeat] at h
    split at h
    · rename_i hb
      simp at h; subst h
      have := List.count_pos_iff.mpr hb
      simp; omega
    · have := ih h
      rw [List.count_cons]; omega

theorem registerRefusal_eq_none {prog : List Instr} : registerRefusal prog = none ↔ ∀ i ∈ prog, i.RegistersInRange := by
  simp only [registerRefusal, Option.map_eq_none_iff, List.find?_eq_none, List.mem_flatMap, decide_eq_true_eq, not_le]
  exact ⟨fun h i hi r hr => h r ⟨i, hi, hr⟩, fun h r ⟨i, hi, hr⟩ => h i hi r hr⟩

theorem immediateRefusal_eq_none {p : Params} {prog : List Instr} :
    immediateRefusal p prog = none ↔ ∀ i ∈ prog, i.ImmediatesInRange p := by
  simp only [immediateRefusal, Option.map_eq_none_iff, List.find?_eq_none, List.mem_flatMap, Bool.not_eq_true',
    decide_eq_false_iff_not, not_not]
  exact ⟨fun h i hi r hr => h r ⟨i, hi, hr⟩, fun h r ⟨i, hi, hr⟩ => h i hi r hr⟩

/-- The verdict is empty exactly on admitted inputs (60_exceptions.md R231 to R234). -/
theorem refusal_eq_none {s : State} : s.refusal = none ↔ s.Admitted := by
  simp only [State.refusal, Option.or_eq_none_iff, labelRefusal, identityRefusal, Option.map_eq_none_iff,
    firstRepeat_eq_none, registerRefusal_eq_none, immediateRefusal_eq_none]
  constructor
  · rintro ⟨hl, hr, hi, hp⟩
    exact ⟨⟨fun i hm => ⟨hr i hm, hi i hm⟩, hl⟩, hp⟩
  · rintro ⟨⟨h, hl⟩, hp⟩
    exact ⟨hl, fun i hm => (h i hm).1, fun i hm => (h i hm).2, hp⟩

/-- Everything a step that answers a next state did (R101 to R104): in a Running state with admitted inputs it met the fetch
fault, or ran the instruction at the pc. -/
theorem step_cases {s t : State} (h : step s = .next t) :
    s.status = .running ∧ s.Admitted ∧
      ((s.prog[s.pc]? = none ∧ t = s.raise (.fetchOutOfRange s.pc)) ∨
        ∃ i, s.prog[s.pc]? = some i ∧ exec i s = .next t) := by
  unfold step at h
  cases hs : s.status with
  | finished => simp [hs] at h
  | faulted r => simp [hs] at h
  | running =>
    simp only [hs] at h
    cases hr : s.refusal with
    | some r => simp [hr] at h
    | none =>
      simp only [hr] at h
      refine ⟨rfl, refusal_eq_none.mp hr, ?_⟩
      cases hf : s.prog[s.pc]? with
      | none => simp [fetch, hf] at h; exact .inl ⟨rfl, h.symm⟩
      | some i => simp [fetch, hf] at h; exact .inr ⟨i, rfl, h⟩

/-- The step in a Running state with admitted inputs. -/
theorem step_running {s : State} (hs : s.status = .running) (ha : s.Admitted) :
    step s = match s.prog[s.pc]? with
      | none => .next (s.raise (.fetchOutOfRange s.pc))
      | some i => exec i s := by
  simp only [step, hs, refusal_eq_none.mpr ha, fetch]
  cases s.prog[s.pc]? <;> rfl

/-- The step in a Running state with inputs that are not admitted. -/
theorem step_refused {s : State} {r : Refusal} (hs : s.status = .running) (hr : s.refusal = some r) :
    step s = .refused r := by
  simp only [step, hs, hr]

/-- A run of one more step is the step and then the rest of the run. -/
theorem run_succ (n : Nat) (s : State) : Host.Core.run Sys2Proof.core (n + 1) s =
    match step s with
    | .next t => Host.Core.run Sys2Proof.core n t
    | .fault f => .fault f
    | .refused r => .refused r := by
  cases h : step s <;> simp [Host.Core.run, Sys2Proof.core, h]

end Sys2Proof.Machine
end

