-- ==== Sys2Proof/Laws/PerInstr.lean ====
section
/-! SUPPORT. The statements made once per constructor of Instr (LAWS.json). -/

/-- The operand fields of a term have the shape its tag has in the format table (30_encoding.md R72, R83). -/
def Sys2Proof.Laws.FieldShape.Statement (i : Sys2Proof.Instr) : Prop :=
  (Sys2Proof.encode i).operands.map Sys2Proof.Operand.kind = Sys2Proof.shapeOf (Sys2Proof.encode i).tag

theorem Sys2Proof.Laws.FieldShape.add (d a b : Nat) : Sys2Proof.Laws.FieldShape.Statement (.add d a b) := rfl
theorem Sys2Proof.Laws.FieldShape.sub (d a b : Nat) : Sys2Proof.Laws.FieldShape.Statement (.sub d a b) := rfl
theorem Sys2Proof.Laws.FieldShape.addi (d a : Nat) (k : Int) : Sys2Proof.Laws.FieldShape.Statement (.addi d a k) := rfl
theorem Sys2Proof.Laws.FieldShape.j (l : String) : Sys2Proof.Laws.FieldShape.Statement (.j l) := rfl
theorem Sys2Proof.Laws.FieldShape.bge (a b : Nat) (l : String) : Sys2Proof.Laws.FieldShape.Statement (.bge a b l) := rfl
theorem Sys2Proof.Laws.FieldShape.bne (a b : Nat) (l : String) : Sys2Proof.Laws.FieldShape.Statement (.bne a b l) := rfl
theorem Sys2Proof.Laws.FieldShape.finish : Sys2Proof.Laws.FieldShape.Statement .finish := rfl
theorem Sys2Proof.Laws.FieldShape.label (n : String) : Sys2Proof.Laws.FieldShape.Statement (.label n) := rfl
end

