-- ==== Sys2Proof/Laws/Text.lean ====
section
/-! SUPPORT. What the text decoder makes of a token or line the text encoder writes (30_encoding.md R86 to R92). -/

namespace Sys2Proof

/-- A character a label name may hold (30_encoding.md R92). -/
def NameChar (c : Char) : Prop := isSpace c = false ∧ c ≠ ',' ∧ c ≠ ':'

/-- A label name is a non-empty text of such characters. -/
theorem isLabelName_iff {cs : List Char} : isLabelName cs = true ↔ cs ≠ [] ∧ ∀ c ∈ cs, NameChar c := by
  simp [isLabelName, NameChar, and_assoc]

theorem NameChar.not_blank {c : Char} (h : NameChar c) : isBlank c = false ∧ c ≠ ' ' := by
  have space : c ≠ ' ' := by rintro rfl; exact absurd h.1 (by decide)
  have tab : c ≠ '\t' := by rintro rfl; exact absurd h.1 (by decide)
  exact ⟨by simp [isBlank, space, tab], space⟩

/-! ### Decimal numbers -/

/-- A digit may stand in a name, and begins neither a register token nor a negative number. -/
theorem nameChar_of_isDigit {c : Char} (h : c.isDigit = true) : NameChar c ∧ c ≠ 'x' ∧ c ≠ '-' := by
  have code : 48 ≤ c.toNat ∧ c.toNat ≤ 57 := by simp [Char.isDigit] at h; exact ⟨h.1, h.2⟩
  refine ⟨⟨by simp [isSpace]; omega, ?_, ?_⟩, ?_, ?_⟩ <;> (rintro rfl; revert h; decide)

theorem isDigit_of_mem_toDigits {n : Nat} {c : Char} (h : c ∈ Nat.toDigits 10 n) : c.isDigit = true :=
  Nat.isDigit_of_mem_toDigits (by omega) (by omega) h

/-- The digits of a number do not begin with 0, but for the number 0 itself. -/
theorem toDigits_head (n : Nat) : ∃ c rest, Nat.toDigits 10 n = c :: rest ∧ (c = '0' → rest = []) := by
  have positive : ∀ n : Nat, 0 < n → ∃ c rest, Nat.toDigits 10 n = c :: rest ∧ c ≠ '0' := by
    intro n
    induction n using Nat.strongRecOn with
    | ind n ih =>
      intro hn
      rcases Nat.lt_or_ge n 10 with h | h
      · rw [Nat.toDigits_of_lt_base h]
        have small : ∀ m : Nat, m < 10 → 0 < m → m.digitChar ≠ '0' := by decide
        exact ⟨_, _, rfl, small n h hn⟩
      · rw [Nat.toDigits_of_base_le (by omega) h]
        obtain ⟨c, rest, hd, hc⟩ := ih (n / 10) (by omega) (by omega)
        exact ⟨c, rest ++ _, by rw [hd]; rfl, hc⟩
  rcases Nat.eq_zero_or_pos n with rfl | h
  · exact ⟨'0', [], rfl, fun _ => rfl⟩
  · obtain ⟨c, rest, hd, hc⟩ := positive n h
    exact ⟨c, rest, hd, fun h0 => absurd h0 hc⟩

/-- The digits of a number read as the number. -/
theorem parseNat_toDigits (n : Nat) : parseNat (Nat.toDigits 10 n) = some n := by
  obtain ⟨c, rest, hd, hc⟩ := toDigits_head n
  have all : (Nat.toDigits 10 n).all Char.isDigit = true := List.all_eq_true.mpr fun _ => isDigit_of_mem_toDigits
  unfold parseNat
  rw [hd] at all ⊢
  simp only [all]
  rw [if_neg, ← hd, Nat.ofDigitChars_toDigits (by omega) (by omega)]
  simp only [Bool.not_true, Bool.or_false, Bool.and_eq_true, decide_eq_true_eq]
  rintro ⟨h0, hne⟩
  simp [hc h0] at hne

/-! ### Operand tokens -/

theorem parseReg_reg_text (n : Nat) : parseReg (Operand.reg n).text = some n := by
  simp [Operand.text, parseReg, parseNat_toDigits]

/-- An integer token is no register token, and reads as its value. -/
theorem parse_int_text (k : Int) : parseReg (Operand.imm k).text = none ∧ parseInt (Operand.imm k).text = some k := by
  rcases lt_or_ge k 0 with h | h
  · simp only [Operand.text, h, if_true]
    refine ⟨rfl, ?_⟩
    simp only [parseInt, parseNat_toDigits]
    rw [if_neg (by omega)]
    congr
    omega
  · obtain ⟨c, rest, hd, _⟩ := toDigits_head k.natAbs
    obtain ⟨_, hx, hminus⟩ := nameChar_of_isDigit (isDigit_of_mem_toDigits (c := c) (n := k.natAbs) (by simp [hd]))
    have value := parseNat_toDigits k.natAbs
    simp only [Operand.text, not_lt.mpr h, if_false]
    rw [hd] at value ⊢
    constructor
    · unfold parseReg
      split
      · rename_i heq; simp at heq; exact absurd heq.1 hx
      · rfl
    · unfold parseInt
      split
      · rename_i heq; simp at heq; exact absurd heq.1 hminus
      · rw [value]; simp; omega

/-- An operand that text can spell: a register, an immediate in range, or a label name that is neither a register nor an
immediate token (30_encoding.md R80, R92). -/
def Operand.Spellable (p : Params) : Operand → Prop
  | .reg _ => True
  | .imm k => p.immMin ≤ k ∧ k ≤ p.immMax
  | .name s => isLabelName s.toList = true ∧ parseReg s.toList = none ∧ parseImm p s.toList = none

/-- The token written for an operand reads as the operand. -/
theorem parseOperand_text {p : Params} {o : Operand} (h : o.Spellable p) : parseOperand p o.text = .ok o := by
  cases o with
  | reg n => simp [parseOperand, parseReg_reg_text]
  | imm k =>
    have hk : p.immMin ≤ k ∧ k ≤ p.immMax := h
    simp [parseOperand, parseImm, (parse_int_text k).1, (parse_int_text k).2, Option.filter, hk]
  | name s => simp [parseOperand, Operand.text, h.1, h.2.1, h.2.2]

theorem isLabelName_reg_text (n : Nat) : isLabelName (Operand.reg n).text = true := by
  refine isLabelName_iff.mpr ⟨by simp [Operand.text], fun c hc => ?_⟩
  rcases List.mem_cons.mp hc with rfl | hc
  · simp only [NameChar]; decide
  · exact (nameChar_of_isDigit (isDigit_of_mem_toDigits hc)).1

/-- An integer token, in range or not, is a label name by its characters. -/
theorem isLabelName_imm_text (k : Int) : isLabelName (Operand.imm k).text = true := by
  have digits : ∀ n, ∀ c ∈ Nat.toDigits 10 n, NameChar c := fun n c hc => (nameChar_of_isDigit (isDigit_of_mem_toDigits hc)).1
  rw [isLabelName_iff]
  simp only [Operand.text]
  split
  · refine ⟨by simp, fun c hc => ?_⟩
    rcases List.mem_cons.mp hc with rfl | hc
    · simp only [NameChar]; decide
    · exact digits _ c hc
  · exact ⟨Nat.toDigits_ne_nil, digits _⟩

/-- A token written for an operand is a label name by its characters. -/
theorem isLabelName_text {p : Params} {o : Operand} (h : o.Spellable p) : isLabelName o.text = true := by
  cases o with
  | reg n => exact isLabelName_reg_text n
  | imm k => exact isLabelName_imm_text k
  | name s => exact h.1

/-! ### Trimming and lines -/

/-- A label name has nothing to trim. -/
theorem trim_labelName {cs : List Char} (h : isLabelName cs = true) : trim cs = cs ∧ trim (' ' :: cs) = cs := by
  have keep : ∀ l : List Char, (∀ c ∈ l, NameChar c) → l.dropWhile isBlank = l := by
    intro l hl
    cases l with
    | nil => rfl
    | cons a l => rw [List.dropWhile_cons_of_neg]; simp [(hl a (by simp)).not_blank.1]
  have hc := (isLabelName_iff.mp h).2
  have self : trim cs = cs := by
    unfold trim
    rw [keep _ hc, keep _ (by simpa using hc)]
    simp
  have space : trim (' ' :: cs) = trim cs := by simp [trim, List.dropWhile, isBlank]
  exact ⟨self, space.trans self⟩

/-- The operand tokens of a line the encoder writes read as the operands. -/
theorem parseOperands_operandText {p : Params} {os : List Operand} (h0 : os ≠ []) (h : ∀ o ∈ os, o.Spellable p) :
    parseOperands p ((operandText os).splitOn ',') = .ok os := by
  have spaced : ∀ os : List Operand, (∀ o ∈ os, o.Spellable p) → parseOperands p (os.map fun o => ' ' :: o.text) = .ok os := by
    intro os
    induction os with
    | nil => exact fun _ => rfl
    | cons o os ih =>
      intro h
      have ho := h o (by simp)
      simp only [List.map_cons, parseOperands, (trim_labelName (isLabelName_text ho)).2, parseOperand_text ho,
        ih fun q hq => h q (by simp [hq])]
  have noComma : ∀ o : Operand, o.Spellable p → ',' ∉ o.text := fun o ho hc =>
    ((isLabelName_iff.mp (isLabelName_text ho)).2 _ hc).2.1 rfl
  obtain ⟨o, os, rfl⟩ := List.exists_cons_of_ne_nil h0
  have ho := h o (by simp)
  simp only [operandText]
  rw [List.splitOn_intercalate]
  · simp only [parseOperands, (trim_labelName (isLabelName_text ho)).1, parseOperand_text ho,
      spaced os fun q hq => h q (by simp [hq])]
  · intro l hl
    rcases List.mem_cons.mp hl with rfl | hl
    · exact noComma o ho
    · obtain ⟨q, hq, rfl⟩ := List.mem_map.mp hl
      have := noComma q (h q (by simp [hq]))
      simpa using this
  · simp

/-- Trimming keeps a last character that is no space and no tab. -/
theorem trim_getLast? {cs : List Char} {c : Char} (h : cs.getLast? = some c) (hc : isBlank c = false) :
    (trim cs).getLast? = some c := by
  obtain ⟨ys, rfl⟩ := List.getLast?_eq_some_iff.mp h
  have front : ∃ zs, (ys ++ [c]).dropWhile isBlank = zs ++ [c] := by
    clear h
    induction ys with
    | nil => exact ⟨[], by simp [hc]⟩
    | cons a ys ih =>
      by_cases ha : isBlank a = true
      · obtain ⟨zs, hz⟩ := ih
        exact ⟨zs, by simpa [ha] using hz⟩
      · exact ⟨a :: ys, by simp [ha]⟩
  obtain ⟨zs, hz⟩ := front
  simp [trim, hz, hc]

/-- The operands of a line end in a character that a name may hold. -/
theorem operandText_getLast? {p : Params} {os : List Operand} (h0 : os ≠ []) (h : ∀ o ∈ os, o.Spellable p) :
    ∃ c, (operandText os).getLast? = some c ∧ NameChar c := by
  have last : ∀ o ∈ os, ∃ c, o.text.getLast? = some c ∧ NameChar c := fun o ho => by
    obtain ⟨hne, hc⟩ := isLabelName_iff.mp (isLabelName_text (h o ho))
    exact ⟨_, List.getLast?_eq_some_getLast hne, hc _ (List.getLast_mem hne)⟩
  have join : ∀ (l : List (List Char)) (x : List Char), (∀ y ∈ x :: l, ∃ c, y.getLast? = some c ∧ NameChar c) →
      ∃ c, ([','].intercalate (x :: l)).getLast? = some c ∧ NameChar c := by
    intro l
    induction l with
    | nil => intro x hx; simpa [List.intercalate] using hx x (by simp)
    | cons y l ih =>
      intro x hx
      obtain ⟨c, hlast, hc⟩ := ih y fun z hz => hx z (List.mem_cons_of_mem _ hz)
      refine ⟨c, ?_, hc⟩
      rw [List.intercalate_cons_cons, List.getLast?_append_of_ne_nil _ (fun e => by simp [e] at hlast)]
      exact hlast
  obtain ⟨o, os, rfl⟩ := List.exists_cons_of_ne_nil h0
  refine join _ _ fun y hy => ?_
  rcases List.mem_cons.mp hy with rfl | hy
  · exact last o (by simp)
  · obtain ⟨q, hq, rfl⟩ := List.mem_map.mp hy
    obtain ⟨c, hlast, hc⟩ := last q (by simp [hq])
    exact ⟨c, by rw [List.getLast?_cons, hlast]; rfl, hc⟩

/-- An instruction line with operands decodes to what its opcode and its operands are (30_encoding.md R87, R89). -/
theorem decodeChars_operands {p : Params} {op : List Char} {tag : BitVec 3} {os : List Operand}
    (hop : isLabelName op = true) (htag : opcodes.lookup (String.ofList op) = some tag) (h0 : os ≠ [])
    (h : ∀ o ∈ os, o.Spellable p) : decodeChars p (op ++ ' ' :: operandText os) = (decode ⟨tag, os⟩).map some := by
  obtain ⟨hne, hchar⟩ := isLabelName_iff.mp hop
  obtain ⟨c, hc, hname⟩ := operandText_getLast? h0 h
  have hlast : (op ++ ' ' :: operandText os).getLast? = some c := by
    rw [List.getLast?_append_of_ne_nil _ (by simp), List.getLast?_cons, hc]
    rfl
  have noSpace : ∀ x ∈ op, (x != ' ') = true := fun x hx => by simp [(hchar x hx).not_blank.2]
  have opcode : (op ++ ' ' :: operandText os).takeWhile (· != ' ') = op := by
    rw [List.takeWhile_append_of_pos noSpace]; simp
  have rest : (op ++ ' ' :: operandText os).dropWhile (· != ' ') = ' ' :: operandText os := by
    rw [List.dropWhile_append_of_pos noSpace]; simp
  unfold decodeChars
  rw [if_neg (by simp), if_neg, if_neg]
  · simp only [decodeInstrLine, opcode, rest, htag, parseOperands_operandText h0 h]
  · obtain ⟨a, op, rfl⟩ := List.exists_cons_of_ne_nil hne
    rw [hlast]
    simp [(hchar a (by simp)).1, hname.1]
  · rw [trim_getLast? hlast hname.not_blank.1]
    simpa using hname.2.2

/-- A name and a colon declare the name (30_encoding.md R86). -/
theorem decodeChars_label (p : Params) {cs : List Char} (h : isLabelName cs = true) :
    decodeChars p (cs ++ [':']) = .ok (some (Instr.label (String.ofList cs))) := by
  obtain ⟨h0, hc⟩ := isLabelName_iff.mp h
  have self : trim (cs ++ [':']) = cs ++ [':'] := by
    obtain ⟨a, l, rfl⟩ := List.exists_cons_of_ne_nil h0
    unfold trim
    rw [List.cons_append, List.dropWhile_cons_of_neg (by simp [(hc a (by simp)).not_blank.1])]
    simp [isBlank]
  unfold decodeChars
  rw [if_neg (by simp), self, if_pos (by simp)]
  simp [h, decode, Except.map]

/-- Only the empty line is blank (30_encoding.md R92). -/
theorem decodeChars_blank {p : Params} {cs : List Char} (h : decodeChars p cs = .ok none) : cs = [] := by
  have notNone : ∀ r : Except DecodeError Instr, r.map some ≠ .ok none := by rintro (_ | _) <;> simp [Except.map]
  unfold decodeChars at h
  split at h
  · assumption
  · split at h
    · dsimp only at h
      split at h
      · exact absurd h (notNone _)
      · cases h
    · split at h
      · cases h
      · exact absurd h (notNone _)

end Sys2Proof
end

