-- ==== Sys2Proof/Tests/Slice0.lean ====
section
/-! SUPPORT. Tests of single steps against the spec's own vectors (95_test_vectors.md), of the decoder against words and
lines written out from 30_encoding.md, of the admission checks, and one witness per statement that has hypotheses. -/

namespace Sys2Proof.Tests

open Sys2Proof.Machine

/-! ### Small states -/

/-- A start state on a program, with the default predictors, `x1 = a`, `x2 = b`. -/
def machine (prog : List Instr) (a b : Word) : State :=
  ((State.start Config.defaultParams prog State.defaultPredictors).setReg 1 a).setReg 2 b

/-- The next state of a step, as something to look at. -/
def after (o : Host.Outcome State Fault Refusal) : Option State :=
  match o with
  | .next s => some s
  | .fault _ => none
  | .refused _ => none

/-- The pc, the status and registers 0 to 4 after one step of a machine. -/
def look (s : State) : Option (Nat × Status × List Word) :=
  (after (step s)).map fun t => (t.pc, t.status, [0, 1, 2, 3, 4].map t.reg)

/-- Six predictors' records at site 0 after one step, in the order of the default list, as pairs (correct, total). -/
def scores (s : State) : Option (List (Nat × Nat)) :=
  (after (step s)).map fun t => t.preds.filterMap fun p => (t.record p.id 0).map fun r => (r.correct, r.total)

/-! ### Add, Sub, AddImmediate (95_test_vectors.md part 2) -/

/-- L2-A2: wraps, no fault. -/
theorem test_add_wraps : look (machine [.add 3 1 2] 0xFFFFFFFFFFFFFFFF 1) =
    some (1, .running, [0, 0xFFFFFFFFFFFFFFFF, 1, 0, 0]) := by decide
/-- L2-A4: a write of `x0` is discarded. -/
theorem test_add_x0 : look (machine [.add 0 1 2] 5 7) = some (1, .running, [0, 5, 7, 0, 0]) := by decide
/-- L2-S1: `src1 - src2`, wrapping. -/
theorem test_sub_wraps : look (machine [.sub 3 1 2] 3 5) = some (1, .running, [0, 3, 5, 0xFFFFFFFFFFFFFFFE, 0]) := by
  decide
/-- L2-S1 under the other SUB_ORDER gives 2. -/
theorem test_sub_other_order :
    look { machine [.sub 3 1 2] 3 5 with params := ⟨.src2MinusSrc1, -2147483648, 2147483647⟩ } =
      some (1, .running, [0, 3, 5, 2, 0]) := by decide
/-- L2-I3: IMM_MIN is sign-extended. -/
theorem test_addi_min : look (machine [.addi 1 0 (-2147483648)] 9 0) =
    some (1, .running, [0, 0xFFFFFFFF80000000, 0, 0, 0]) := by decide
/-- L2-I4: source and destination the same, wrapping to 0. -/
theorem test_addi_wraps : look (machine [.addi 1 1 1] 0xFFFFFFFFFFFFFFFF 0) = some (1, .running, [0, 0, 0, 0, 0]) := by
  decide

/-! ### Jump, BranchIfGE, BranchIfNE -/

/-- L2-J1: the jump goes to the label and no predictor is queried. -/
theorem test_j : (after (step (machine [.j "end", .addi 1 0 1, Instr.label "end", .finish] 0 0))).map
    (fun t => (t.pc, t.acc)) = some (2, []) := by decide
/-- L2-J2: an undeclared label. -/
theorem test_j_undeclared : look (machine [.j "nowhere", .finish] 0 0) =
    some (0, .faulted (.unresolvedLabel 0 "nowhere"), [0, 0, 0, 0, 0]) := by decide
/-- L2-G4: unsigned, so taken; the scores are those of L2-B1. -/
theorem test_bge_unsigned :
    look (machine [.bge 1 2 "T", Instr.label "T", .finish] 0xFFFFFFFFFFFFFFFF 1) =
      some (1, .running, [0, 0xFFFFFFFFFFFFFFFF, 1, 0, 0]) ∧
    scores (machine [.bge 1 2 "T", Instr.label "T", .finish] 0xFFFFFFFFFFFFFFFF 1) =
      some [(1, 1), (0, 1), (1, 1), (0, 1), (0, 1), (0, 1)] := by decide
/-- L2-G5: not taken, where a signed comparison would be taken. -/
theorem test_bge_not_taken : look (machine [.bge 1 2 "T", .finish, Instr.label "T"] 1 0xFFFFFFFFFFFFFFFF) =
    some (1, .running, [0, 1, 0xFFFFFFFFFFFFFFFF, 0, 0]) := by decide
/-- L2-N3: the words differ in bit 63 only, so taken. -/
theorem test_bne_top_bit : look (machine [.bne 1 2 "T", .finish, Instr.label "T"] 0x8000000000000000 0) =
    some (2, .running, [0, 0x8000000000000000, 0, 0, 0]) := by decide
/-- L2-B2: not taken with a forward target; scores and counter tables. -/
theorem test_bne_not_taken :
    scores (machine [.bne 0 0 "T", .finish, Instr.label "T"] 0 0) =
      some [(0, 1), (1, 1), (0, 1), (1, 1), (1, 1), (1, 1)] ∧
    (after (step (machine [.bne 0 0 "T", .finish, Instr.label "T"] 0 0))).map (fun t => (t.preds.drop 4).map
      Predictor.strategy) = some [.oneBit [(0, .notTaken)], .twoBit [(0, .stronglyNotTaken)]] := by decide

/-! ### Finish, Label, faults, and the end of a run -/

/-- L2-F1. -/
theorem test_finish : look (machine [.finish] 0 0) = some (0, .finished, [0, 0, 0, 0, 0]) := by decide
/-- L2-F2. -/
theorem test_label : look (machine [Instr.label "start", .finish] 0 0) = some (1, .running, [0, 0, 0, 0, 0]) := by decide
/-- L2-E1: the empty program. -/
theorem test_empty_program : look (machine [] 0 0) = some (0, .faulted (.fetchOutOfRange 0), [0, 0, 0, 0, 0]) := by decide
/-- L2-E4: "A model that admits it faults at step 1", by the instruction itself. -/
theorem test_register_32 : (after (exec (.add 32 0 0) (machine [.add 32 0 0, .finish] 0 0))).map State.status =
    some (.faulted (.registerIndexOutOfRange 0 32)) := by decide
/-- 60_exceptions.md R220: the three fault codes. -/
theorem test_fault_codes : [FaultReport.fetchOutOfRange 0, .unresolvedLabel 0 "", .registerIndexOutOfRange 0 0].map
    faultCode = [1, 2, 3] := by decide

/-! ### The predictor engines -/

/-- The predictions and the state after each of a list of outcomes at one site, for the 2-bit counter. -/
def twoBitTrace : List Bool → TwoBit → List (Bool × Nat)
  | [], _ => []
  | o :: os, s => (predictTwoBit s, (twoBitCode (updateTwoBit s o)).toNat) :: twoBitTrace os (updateTwoBit s o)

/-- L2-P7: saturation at both ends. -/
theorem test_two_bit : twoBitTrace [true, true, true, true, false, false, false, true] .stronglyNotTaken =
    [(false, 1), (false, 2), (true, 3), (true, 3), (true, 2), (true, 1), (false, 0), (false, 1)] := by decide
/-- L2-P3 and L2-P4: a backward target at site 3, for the four stateless variants. -/
theorem test_stateless : [Strategy.alwaysTaken, .neverTaken, .forwardTaken, .backwardTaken].map
      (fun st => [true, false].map fun o => (query ⟨"p", st⟩ ⟨3, Vector.replicate 32 0⟩ 1 o).1) =
    [[true, false], [false, true], [false, true], [true, false]] := by decide
/-- L2-P5, its second query: state Taken, outcome not taken: no match, and the state becomes NotTaken. -/
theorem test_one_bit : query ⟨"p", .oneBit [(3, .taken)]⟩ ⟨3, Vector.replicate 32 0⟩ 7 false =
    (false, ⟨"p", .oneBit [(3, .notTaken)]⟩) := by decide

/-! ### Ill-formed terms and inputs (60_exceptions.md section 3) -/

/-- R232: a register operand of 32. -/
theorem test_illformed_register : ¬(Instr.add 32 0 0).WellFormed Config.defaultParams := by decide
/-- R233: one above IMM_MAX (L2-I8). -/
theorem test_illformed_immediate : ¬(Instr.addi 1 0 2147483648).WellFormed Config.defaultParams := by decide
/-- R231: a name declared twice (L2-E6). -/
theorem test_illformed_labels : ¬ProgramWellFormed Config.defaultParams [Instr.label "a", Instr.label "a", .finish] := by
  decide
/-- L2-E5: refused, although the instruction would never execute. -/
theorem test_refused_register : step (machine [.finish, .add 1 40 0] 0 0) = .refused (.registerIndex 40) := rfl
/-- L2-E6. -/
theorem test_refused_label : step (machine [Instr.label "a", Instr.label "a", .finish] 0 0) =
    .refused (.duplicateLabel "a") := rfl
/-- L2-I9. -/
theorem test_refused_immediate : step (machine [.addi 1 0 (-9223372036854775808)] 0 0) =
    .refused (.immediateRange (-9223372036854775808)) := rfl
/-- L2-B7. -/
theorem test_refused_identity : (State.start Config.defaultParams [] [⟨"X", .alwaysTaken⟩, ⟨"X", .neverTaken⟩]).refusal =
    some (.duplicateIdentity "X") := by decide

/-! ### Decoding: tags and operand fields written out from 30_encoding.md R72 and R74 -/

/-- One word per opcode, the tag bits from R74 and the operand fields in the order of R83. -/
theorem test_decode_words :
    [decode ⟨0b000#3, [.reg 3, .reg 1, .reg 2]⟩, decode ⟨0b001#3, [.reg 3, .reg 1, .reg 2]⟩,
      decode ⟨0b010#3, [.reg 1, .reg 0, .imm (-1)]⟩, decode ⟨0b011#3, [.name "end"]⟩,
      decode ⟨0b100#3, [.reg 1, .reg 2, .name "big"]⟩, decode ⟨0b101#3, [.reg 1, .reg 0, .name "loop"]⟩,
      decode ⟨0b110#3, []⟩, decode ⟨0b111#3, [.name "loop"]⟩] =
    [.ok (.add 3 1 2), .ok (.sub 3 1 2), .ok (.addi 1 0 (-1)), .ok (.j "end"), .ok (.bge 1 2 "big"),
      .ok (.bne 1 0 "loop"), .ok .finish, .ok (Instr.label "loop")] := by decide
/-- L2-E8, L2-E9, L2-E10: wrong operand shapes. -/
theorem test_decode_shapes :
    [decode ⟨0b011#3, [.reg 3]⟩, decode ⟨0b010#3, [.reg 1, .reg 2, .reg 3]⟩, decode ⟨0b110#3, [.reg 1]⟩] =
    [.error (.badShape 3), .error (.badShape 2), .error (.badShape 6)] := by decide

/-! ### Decoding: text (30_encoding.md R85 to R92) -/

/-- L2-E7, L2-E8, L2-E9, L2-E10 and L2-E11, and two more boundaries of R92: a leading zero is no register but a label name,
and an empty operand token is nothing. -/
theorem test_refused_lines :
    ["mv x1, x2", "j x3", "addi x1, x2, x3", "finish x1", "  finish", "add x01, x0, x0", "add x1,, x0"].map
      (decodeLine Config.defaultParams) =
      [.error (.unknownOpcode "mv"), .error (.badShape 3), .error (.badShape 2), .error (.badShape 6),
        .error .strayWhitespace, .error (.badShape 0), .error (.badOperand "")] := by decide
/-- R92: labels and operand tokens are trimmed, the first space ends the opcode, and a tab does not. -/
theorem test_trimmed_lines :
    ["  loop:\t", "loop :", "add  x1 ,\tx2,x3 , ", "add x1 ,\tx2,  x3", "add\tx1, x2, x3", "a b:"].map
      (decodeLine Config.defaultParams) =
      [.ok (some (Instr.label "loop")), .error (.badLabelName "loop "), .error .strayWhitespace, .ok (some (.add 1 2 3)),
        .error (.unknownOpcode "add\tx1,"), .error (.badLabelName "a b")] := by decide
/-- R85: positions count the non-blank lines; R92: a refused line refuses the program, and is numbered from 1. -/
theorem test_program_text :
    decodeProgram Config.defaultParams "j end\n\nend:\nfinish\n" = .ok [.j "end", Instr.label "end", .finish] ∧
    decodeProgram Config.defaultParams "finish\n\nmv x1, x2" = .error (3, .unknownOpcode "mv") := by decide
/-- R92: an integer in the range is an immediate and one outside it any other token, a label reference; the widened range of
00_scope.md R8 takes it in. -/
theorem test_immediate_range :
    ["j 2147483647", "j 2147483648", "addi x1, x0, -2147483648", "addi x1, x0, -2147483649"].map
      (decodeLine Config.defaultParams) =
        [.error (.badShape 3), .ok (some (.j "2147483648")), .ok (some (.addi 1 0 (-2147483648))), .error (.badShape 2)] ∧
    decodeLine ⟨.src1MinusSrc2, -9223372036854775808, 9223372036854775807⟩ "addi x1, x0, 2147483648" =
      .ok (some (.addi 1 0 2147483648)) := by decide

/-! ### Witnesses: for each statement with hypotheses, states and operands that meet them, at the ends of their ranges -/

/-- A machine for the witnesses: a branch, a jump, a label, and an undeclared reference. -/
def sample : State := machine [.bge 1 2 "L", .bne 1 31 "L", .j "L", Instr.label "L", .j "nowhere", .finish] 7 7

/-- The sample with the pc at a position. -/
def sampleAt (k : Nat) : State := { sample with pc := k }

/-- The label of the sample, at position 3. -/
theorem sample_label (k : Nat) : (sampleAt k).LabelAt "L" 3 :=
  labelAt_of_nodup (show (declaredNames sample.prog).Nodup by decide) (show sample.prog[3]? = some _ by decide)

/-- A name the sample does not declare. -/
theorem sample_undeclared (k : Nat) : (sampleAt k).Undeclared "nowhere" :=
  undeclared_iff.mpr (show Instr.label "nowhere" ∉ sample.prog by decide)

/-- A state in which the instruction at the pc is ready to run. -/
theorem sample_ready (k : Nat) (i : Instr) (h : sample.prog[k]? = some i) : (sampleAt k).Ready i :=
  ⟨rfl, show sample.Admitted by decide, h⟩

/-- RegisterReadAndWrite: both sides of the boundary at 32, and `x0`. -/
theorem witness_RegisterReadAndWrite : (writeReg sample 0 9).toOption = some sample ∧ 32 ≤ 32 ∧ 31 < 32 ∧ 0 < 32 ∧
    readReg sample 32 = .error (.registerIndexOutOfRange 0 32) ∧ (readReg sample 31).toOption = some 0 ∧
    ((writeReg sample 31 9).toOption.map fun t => [t.reg 31, t.reg 0, t.reg 1]) = some [9, 0, 7] := by decide

/-- AddWritesTheSum, SubWritesTheDifference and AddImmediateWritesTheSum: operands at 0, 31 and 32 in each place. -/
theorem witness_arithmetic_operands :
    (31 < 32 ∧ 0 < 32 ∧ 31 < 32) ∧ (32 ≤ 32 ∨ 32 ≤ 0 ∨ 32 ≤ 31) ∧ (32 ≤ 31 ∨ 32 ≤ 32 ∨ 32 ≤ 0) ∧
    (32 ≤ 0 ∨ 32 ≤ 31 ∨ 32 ≤ 32) ∧ (32 ≤ 32 ∨ 32 ≤ 31) ∧ (32 ≤ 31 ∨ 32 ≤ 32) := by decide

/-- ArithmeticFrame: each of the three answers a next state, with operands in range and out of range. -/
theorem witness_ArithmeticFrame :
    ((after (exec (.add 31 1 2) sample)).isSome ∧ (after (exec (.sub 31 1 2) sample)).isSome ∧
      (after (exec (.addi 31 1 (-1)) sample)).isSome) ∧
    (after (exec (.add 32 1 2) sample)).isSome ∧ (31 ≠ 1 ∨ 1 = 0) ∧ (0 ≠ 0 ∨ 0 = 0) := by decide

/-- FirstBadOperandIsReported: every clause, at 31 and 32. -/
theorem witness_FirstBadOperandIsReported :
    sample.Undeclared "nowhere" ∧ (sample.LabelAt "L" 3 ∧ 32 ≤ 32) ∧ (sample.LabelAt "L" 3 ∧ 31 < 32 ∧ 32 ≤ 32) ∧
    32 ≤ 32 ∧ (31 < 32 ∧ 32 ≤ 32) ∧ (31 < 32 ∧ 31 < 32 ∧ 32 ≤ 32) :=
  ⟨sample_undeclared 0, ⟨sample_label 0, by decide⟩, ⟨sample_label 0, by decide, by decide⟩, by decide, by decide,
    by decide⟩

/-- PrecomputedLabelTableEqualsTheScan: an admitted program and its table. -/
theorem witness_PrecomputedLabelTableEqualsTheScan : ProgramWellFormed sample.params sample.prog ∧
    ∀ n k, (n, k) ∈ [("L", 3)] ↔ sample.prog[k]? = some (Instr.label n) := by
  refine ⟨by decide, fun n k => ⟨fun h => ?_, fun h => ?_⟩⟩
  · simp at h; obtain ⟨rfl, rfl⟩ := h; decide
  · match k, h with
    | 3, h => cases h; simp
    | 0, h | 1, h | 2, h | 4, h | 5, h => cases h
    | k + 6, h => simp [sample, machine, State.start] at h

/-- JumpGoesToItsLabel: both clauses. -/
theorem witness_JumpGoesToItsLabel : sample.LabelAt "L" 3 ∧ sample.Undeclared "nowhere" :=
  ⟨sample_label 0, sample_undeclared 0⟩

/-- BranchIfGEIsUnsigned and BranchIfNEComparesWords: each clause, at registers 0, 31 and 32. -/
theorem witness_branches :
    (0 < 32 ∧ 31 < 32 ∧ sample.LabelAt "L" 3 ∧ (sample.preds.map Predictor.id).Nodup) ∧ sample.Undeclared "nowhere" ∧
    (sample.LabelAt "L" 3 ∧ (32 ≤ 32 ∨ 32 ≤ 0)) ∧ (sample.LabelAt "L" 3 ∧ (32 ≤ 0 ∨ 32 ≤ 32)) :=
  ⟨⟨by decide, by decide, sample_label 0, by decide⟩, sample_undeclared 0, ⟨sample_label 0, by decide⟩,
    ⟨sample_label 0, by decide⟩⟩

/-- BranchFrame: both branches answer a next state, and each of its clauses has a case. -/
theorem witness_BranchFrame : (after (exec (.bge 1 2 "L") sample)).isSome ∧ (after (exec (.bne 1 2 "L") sample)).isSome ∧
    ("Z" ∉ sample.preds.map Predictor.id ∨ 0 ≠ sample.pc) ∧ 1 ≠ sample.pc ∧
    sample.preds[5]? = some ⟨"TwoBitCounter", .twoBit []⟩ ∧
    ((after (exec (.bge 1 2 "L") sample)).bind fun t => t.preds[5]?) =
      some ⟨"TwoBitCounter", .twoBit [(0, .weaklyNotTaken)]⟩ := by decide

/-- EmptyPredictorListOnlyMovesThePc. -/
theorem witness_EmptyPredictorListOnlyMovesThePc : let s := { sample with preds := [] }
    s.preds = [] ∧ 1 < 32 ∧ 31 < 32 ∧ s.LabelAt "L" 3 :=
  ⟨rfl, by decide, by decide, labelAt_of_nodup (by decide) (by decide)⟩

/-- BranchTargetIsAnotherPosition. -/
theorem witness_BranchTargetIsAnotherPosition : sample.BranchAt sample.pc ∧ resolve sample "L" = .ok 3 := ⟨by decide, rfl⟩

/-- JumpFinishLabelFrame: the three answer a next state, `j` with its label undeclared too. -/
theorem witness_JumpFinishLabelFrame : (after (exec (.j "L") sample)).isSome ∧ (after (exec .finish sample)).isSome ∧
    (after (exec (Instr.label "L") sample)).isSome ∧ (after (exec (.j "nowhere") sample)).isSome := by decide

/-- OneBitCounterRepeatsTheLastOutcome: two hart states with one pc. -/
theorem witness_OneBitCounterRepeatsTheLastOutcome :
    (machine [] 1 2).hart.pc = (machine [] 3 4).hart.pc ∧ (machine [] 1 2).hart ≠ (machine [] 3 4).hart := by decide

/-- TwoBitCounterNeedsTwoInARow: outcomes that reach the prediction of each clause. -/
theorem witness_TwoBitCounterNeedsTwoInARow :
    predictTwoBit ([false, true, true].foldl updateTwoBit .stronglyNotTaken) = true ∧
    predictTwoBit ([true, false, false].foldl updateTwoBit .stronglyTaken) = false := by decide

/-- QueryContract, OneBitCounterTransition and TwoBitCounterTransition: another site, another hart with the same pc, another
strategy of the variant with the same entry, and a visited site. QueryContract's clauses on states: a step at no branch here,
and the invariant in witness_invariants. -/
theorem witness_QueryContract : 4 ≠ (machine [] 1 2).hart.pc ∧ (machine [] 3 4).hart.pc = (machine [] 1 2).hart.pc ∧
    (Strategy.twoBit [(0, .weaklyTaken)]).variant = (Strategy.twoBit [(0, .weaklyTaken), (4, .weaklyTaken)]).variant ∧
    (Strategy.twoBit [(0, .weaklyTaken)]).entry 0 = (Strategy.twoBit [(0, .weaklyTaken), (4, .weaklyTaken)]).entry 0 ∧
    (Strategy.twoBit [(0, .weaklyTaken)]).visited 0 = true ∧
    ¬(sampleAt 3).BranchAt (sampleAt 3).pc ∧ (after (step (sampleAt 3))).isSome = true := by decide

/-- StepRunsTheFetchedInstruction and EachInstructionMovesThePc: ready states, their steps and safe next states. -/
theorem witness_ready :
    (sampleAt 0).Ready (.bge 1 2 "L") ∧ (sampleAt 1).Ready (.bne 1 31 "L") ∧ (sampleAt 2).Ready (.j "L") ∧
    (sampleAt 3).Ready (Instr.label "L") ∧ (sampleAt 5).Ready .finish ∧
    ([0, 1, 2, 3, 4, 5].map fun k => (after (step (sampleAt k))).map fun t => decide t.Safe) =
      [some true, some true, some true, some true, some false, some true] :=
  ⟨sample_ready 0 _ rfl, sample_ready 1 _ rfl, sample_ready 2 _ rfl, sample_ready 3 _ rfl, sample_ready 5 _ rfl,
    by decide⟩

/-- EachInstructionMovesThePc: the three arithmetic instructions. -/
theorem witness_ready_arithmetic : (machine [.add 3 1 2] 1 2).Ready (.add 3 1 2) ∧
    (machine [.sub 3 1 2] 1 2).Ready (.sub 3 1 2) ∧ (machine [.addi 3 1 4] 1 2).Ready (.addi 3 1 4) :=
  ⟨⟨rfl, by decide, rfl⟩, ⟨rfl, by decide, rfl⟩, ⟨rfl, by decide, rfl⟩⟩

/-- FetchOutsideTheSequenceFaults: the last position and the one past it. -/
theorem witness_FetchOutsideTheSequenceFaults : sample.prog[5]? = some .finish ∧
    (sampleAt 6).status = .running ∧ (sampleAt 6).Admitted ∧ (sampleAt 6).prog.length ≤ (sampleAt 6).pc := by decide

/-- NoStepAfterTheEnd: each clause. -/
theorem witness_NoStepAfterTheEnd :
    sample.halt.status = .finished ∧ (sample.raise (.fetchOutOfRange 0)).status = .faulted (.fetchOutOfRange 0) ∧
    step sample.halt = .fault .runFinished := ⟨rfl, rfl, rfl⟩

/-- StepRefusesExactlyUnadmittedInputs: a Running state on each side. -/
theorem witness_StepRefusesExactlyUnadmittedInputs :
    (sample.status = .running ∧ sample.Admitted) ∧
    (machine [.add 32 0 0] 0 0).status = .running ∧ ¬(machine [.add 32 0 0] 0 0).Admitted := by decide

/-- RefusalNamesItsCause: a state for each clause. -/
theorem witness_RefusalNamesItsCause :
    step (machine [Instr.label "a", Instr.label "a"] 0 0) = .refused (.duplicateLabel "a") ∧
    step (machine [.add 1 32 0] 0 0) = .refused (.registerIndex 32) ∧
    step (machine [.addi 1 0 2147483648] 0 0) = .refused (.immediateRange 2147483648) ∧
    step (State.start Config.defaultParams [] [⟨"X", .alwaysTaken⟩, ⟨"X", .neverTaken⟩]) =
      .refused (.duplicateIdentity "X") := ⟨rfl, rfl, rfl, rfl⟩

/-- FaultChangesOnlyTheStatus: a step that meets the fetch fault, and one that meets an unresolved label. -/
theorem witness_FaultChangesOnlyTheStatus :
    (after (step (sampleAt 6))).map State.status = some (.faulted (.fetchOutOfRange 6)) ∧
    (after (step (sampleAt 4))).map State.status = some (.faulted (.unresolvedLabel 4 "nowhere")) := by decide

/-- AdmittedProgramNeverFaultsOnARegister, StepKeepsTheInputs, and OnlyFinishEndsARunNormally and OutputOfARun on both sides:
steps that answer a next state, one at a Finish and one not. -/
theorem witness_steps :
    (after (step (sampleAt 5))).map State.status = some .finished ∧
    (after (step (sampleAt 3))).map State.status = some .running := by decide

/-- OnlyArithmeticWritesARegister: a step that changes register 3. -/
theorem witness_OnlyArithmeticWritesARegister :
    (after (step (machine [.add 3 1 2] 1 2))).map (fun t => decide (t.reg 3 ≠ (machine [.add 3 1 2] 1 2).reg 3)) =
      some true := by decide

/-- OnlyBranchesAreMeasured: a step that changes the accuracy table. -/
theorem witness_OnlyBranchesAreMeasured :
    (after (step sample)).map (fun t => decide (t.preds = sample.preds ∧ t.acc = sample.acc)) = some false := by decide

/-- RecordsAreNeverRemoved: a step from a state that holds a record, of the same site. -/
theorem witness_RecordsAreNeverRemoved : let s := { sample with acc := [("AlwaysTaken", [(0, ⟨2, 3⟩)])] }
    s.record "AlwaysTaken" 0 = some ⟨2, 3⟩ ∧
    (after (step s)).map (fun t => t.record "AlwaysTaken" 0) = some (some ⟨3, 4⟩) := by decide

/-- LoadingStartsAdmittedInputs: an accepted text, one that does not parse, and inputs that are and are not admitted. -/
theorem witness_LoadingStartsAdmittedInputs :
    decodeProgram Config.defaultParams "finish" = .ok [.finish] ∧ decodeProgram Config.defaultParams "stop" = .error (1, .unknownOpcode "stop") ∧
    (State.load Config.defaultParams [.finish] []).toOption = some (State.start Config.defaultParams [.finish] []) ∧
    (State.load Config.defaultParams [.add 32 0 0] []).toOption = none := by decide

/-- OutputOfARun: a state of each status, the Running one admitted. -/
theorem witness_OutputOfARun : sample.Admitted ∧ sample.halt.status = .finished ∧
    (sample.raise (.fetchOutOfRange 0)).status = .faulted (.fetchOutOfRange 0) ∧ sample.status = .running ∧ 31 < 32 :=
  ⟨by decide, rfl, rfl, rfl, by decide⟩

/-- ProbeRunsTheDecodedInstruction: at reset, and at a later pc. -/
theorem witness_ProbeRunsTheDecodedInstruction :
    decodeTableWord 8 6 = some .finish ∧ (State.reset.preds.map Predictor.id).Nodup ∧ State.reset.params.immMin ≤ 0 ∧
    0 ≤ State.reset.params.immMax ∧ (after (step ((sampleAt 5).withFetchWord 8 2))).map State.pc = some 6 := by decide

/-- TextRoundTrip: spellable terms, at the ends of the ranges. -/
theorem witness_TextRoundTrip :
    [Instr.add 31 0 9, .addi 0 31 (-2147483648), .addi 10 1 0, .j "end", .bne 1 0 "x", .finish, Instr.label "x3", .j "-2147483649"].map
      (fun i => (i.spellable Config.defaultParams, encodeLine i)) =
    [(true, "add x31, x0, x9"), (true, "addi x0, x31, -2147483648"), (true, "addi x10, x1, 0"), (true, "j end"),
      (true, "bne x1, x0, x"), (true, "finish"), (true, "x3:"),
      (true, "j -2147483649")] := by decide

/-- LinesBecomePositions: lines with a blank one between. -/
theorem witness_LinesBecomePositions :
    decodeLines Config.defaultParams ["j a".toList, [], "a:".toList] 1 = .ok [.j "a", Instr.label "a"] ∧
    ["j a".toList, [], "a:".toList][2]? = some "a:".toList ∧ "a:".toList ≠ [] := by decide

/-- RegisterAndIntegerNamesCannotBeReferenced: a register, immediates at the two ends of the range, integers just outside it,
and a line that decodes to a term with a reference. -/
theorem witness_RegisterAndIntegerNamesCannotBeReferenced :
    ((∃ n, Operand.reg 32 = .reg n) ∨ ∃ k, Operand.reg 32 = .imm k ∧ Config.defaultParams.immMin ≤ k ∧
      k ≤ Config.defaultParams.immMax) ∧
    (∀ k ∈ [-2147483648, 2147483647], Config.defaultParams.immMin ≤ k ∧ k ≤ Config.defaultParams.immMax) ∧
    (∀ k ∈ [-2147483649, 2147483648], ¬(Config.defaultParams.immMin ≤ k ∧ k ≤ Config.defaultParams.immMax)) ∧
    decodeChars Config.defaultParams "j end".toList = .ok (some (.j "end")) ∧ "end" ∈ (Instr.j "end").refersTo :=
  ⟨.inl ⟨32, rfl⟩, by decide, by decide, by decide, by decide⟩

/-- StartMeetsTheInvariant: fresh predictors. -/
theorem witness_StartMeetsTheInvariant : ∀ p ∈ State.defaultPredictors, p.strategy = p.strategy.variant := by decide

/-- StepKeepsTheInvariant, StepKeepsOppositesAddingUp and CounterTablesStayWithinTheBranches: the sample meets the invariants,
and its step is a branch that answers a next state. -/
theorem witness_invariants : sample.Inv ∧ sample.OppositesAddUp ∧ (after (step sample)).isSome = true ∧
    ∃ p ∈ sample.preds, p.strategy.isCounter = true := by
  have none : ∀ id site, sample.record id site = none := fun _ _ => rfl
  refine ⟨⟨Nat.zero_le _, ⟨by decide, by decide, fun p hp => ?_⟩, fun id site r h => ?_, fun p _ q _ site => ?_,
    fun p hp _ site => ?_⟩, ⟨fun p _ q _ _ _ site r r' h => ?_, fun p _ q _ _ _ site r r' h => ?_⟩, by decide, by decide⟩
  · simp [sample, machine, State.start, State.setReg, State.defaultPredictors] at hp
    rcases hp with rfl | rfl | rfl | rfl | rfl | rfl <;> simp [Strategy.Canonical]
  · simp [none] at h
  · simp [none]
  · simp [sample, machine, State.start, State.setReg, State.defaultPredictors] at hp
    rcases hp with rfl | rfl | rfl | rfl | rfl | rfl <;> simp [none, Strategy.visited, Strategy.entry, tableGet]
  · simp [none] at h
  · simp [none] at h

/-- PredictorsNeverChangeTheRun: the same hart with no predictors. -/
theorem witness_PredictorsNeverChangeTheRun : SameHart sample { sample with preds := [] } ∧
    (sample.preds.map Predictor.id).Nodup ∧ (([] : List Predictor).map Predictor.id).Nodup :=
  ⟨⟨rfl, rfl, rfl, rfl, rfl⟩, by decide, by decide⟩

/-- RegistrationOrderHasNoEffect: the same predictors in the reverse order. -/
theorem witness_RegistrationOrderHasNoEffect : SameUpToOrder sample { sample with preds := sample.preds.reverse } ∧
    (sample.preds.map Predictor.id).Nodup ∧ TableSorted sample.acc ∧ sample.preds.reverse ≠ sample.preds :=
  ⟨⟨⟨rfl, rfl, rfl, rfl, rfl⟩, rfl, (List.reverse_perm _).symm⟩, by decide, by decide, by decide⟩

/-- TotalsCountBranchExecutions: a registered predictor and one step, at a branch whose run goes on. -/
theorem witness_TotalsCountBranchExecutions : ⟨"AlwaysTaken", .alwaysTaken⟩ ∈ sample.preds ∧
    (after (Host.Core.run Sys2Proof.core 1 sample)).isSome ∧ branchVisits 0 1 sample = 1 := by decide

end Sys2Proof.Tests
end

/-! Proofs of the family 10_state.md: the register primitives, and how each instruction moves the pc. -/

namespace Sys2Proof.Machine

/-! ### Registers -/

@[simp] theorem State.setReg_zero (s : State) (v : Word) : s.setReg 0 v = s := by simp [State.setReg]

/-- Settles O3: the boundary at 32 is that of `readReg` and `writeReg`, and a read after a write is `State.reg_setReg`. -/
theorem registerReadAndWrite : Obligations.RegisterReadAndWrite := by
  intro s i v
  refine ⟨?_, ?_, fun hi => ⟨readReg_error hi, writeReg_error v hi⟩,
    fun hi => ⟨readReg_ok hi, s.setReg i v, writeReg_ok v hi, by simp, fun j hj => ?_⟩⟩
  · rw [readReg_ok (by decide), State.reg_zero]
  · rw [writeReg_ok v (by decide), State.setReg_zero]
  · rw [readReg_ok hj, State.reg_setReg s i j v hi]

/-! ### The pc -/

/-- A ready state's step is the execution of the instruction at its pc (40_execution_loop.md R103). -/
theorem step_of_ready {s : State} {i : Instr} (h : s.Ready i) : step s = exec i s := by
  obtain ⟨hrunning, hadmitted, hfetched⟩ := h
  rw [step_running hrunning hadmitted, hfetched]

/-- A state that has taken a fatal condition is not safe. -/
theorem State.raise_not_safe (s : State) (r : FaultReport) : ¬(s.raise r).Safe := by simp [State.Safe]

/-- Where no name is declared twice, a position that a label resolves to is its one position (42_control_transfer.md
R150). -/
theorem labelAt_of_resolve {s : State} {name : String} {k : Nat} (hn : (declaredNames s.prog).Nodup)
    (hk : resolve s name = .ok k) : s.LabelAt name k := by
  rcases resolve_cases s name with ⟨m, hm, hlabel, _⟩ | ⟨herror, _⟩
  · obtain rfl : m = k := by simpa [hm] using hk
    exact labelAt_of_nodup hn hlabel
  · simp [herror] at hk

/-- The branch-resolve protocol leaves the pc at the label where the outcome `p` is true, and advances it where not
(40_execution_loop.md R106). -/
theorem branchResolve_moves_pc {s : State} {name : String} {k : Nat} (hk : s.LabelAt name k) (p : Prop) [Decidable p] :
    if p then s.LabelAt name (branchResolve s k (decide p)).pc
    else (branchResolve s k (decide p)).pc = s.pc + 1 := by
  split
  · next hp => simpa [hp] using hk
  · next hp => simp [hp]

/-- Settles O35, by the cases of what an instruction can do; the two fatal ones are not safe. -/
theorem eachInstructionMovesThePc : Obligations.EachInstructionMovesThePc := by
  intro s t i hready hstep hsafe
  rw [step_of_ready hready] at hstep
  obtain ⟨_, ⟨⟨_, hnodup⟩, _⟩, _⟩ := hready
  rcases exec_cases hstep with ⟨d, v, a, b, imm, rfl | rfl | rfl, _, rfl⟩ | ⟨l, k, rfl, hk, rfl⟩ | ⟨l, rfl, rfl⟩ |
    ⟨a, b, l, k, ⟨rfl, rfl⟩ | ⟨rfl, rfl⟩, hk⟩ | ⟨rfl, rfl⟩ | ⟨l, rfl, _⟩ | ⟨r, rfl, _⟩
  · simp
  · simp
  · simp
  · exact labelAt_of_resolve hnodup hk
  · exact State.advance_pc s
  · exact branchResolve_moves_pc (labelAt_of_resolve hnodup hk) ((s.reg b).toNat ≤ (s.reg a).toNat)
  · exact branchResolve_moves_pc (labelAt_of_resolve hnodup hk) (s.reg a ≠ s.reg b)
  · exact State.halt_pc s
  · exact absurd hsafe (State.raise_not_safe s _)
  · exact absurd hsafe (State.raise_not_safe s _)

end Sys2Proof.Machine

/-! Proofs of the family 40_execution_loop.md: the fetch, how a run ends, and what it delivers. -/

namespace Sys2Proof.Machine

/-! ### How a step leaves the status -/

/-- An instruction that refers to a label is no `Finish`. -/
theorem Instr.ne_finish_of_mem_refersTo {i : Instr} {n : String} (h : n ∈ i.refersTo) : i ≠ .finish := by
  rintro rfl
  simp [Instr.refersTo] at h

/-- What an instruction with its registers in range does to the status (40_execution_loop.md R104): it keeps it, halts at a
`Finish`, or takes the fatal condition of an undeclared label. -/
theorem exec_status_cases {i : Instr} {s t : State} (hr : i.RegistersInRange) (h : exec i s = .next t) :
    (i ≠ .finish ∧ t.status = s.status) ∨
    (i = .finish ∧ t = s.halt) ∨
    ∃ n, n ∈ i.refersTo ∧ s.Undeclared n ∧ t = s.raise (.unresolvedLabel s.pc n) := by
  rcases exec_cases h with ⟨d, v, a, b, imm, rfl | rfl | rfl, _, rfl⟩ | ⟨n, k, rfl, _, rfl⟩ | ⟨n, rfl, rfl⟩ |
    ⟨a, b, n, k, ⟨rfl, rfl⟩ | ⟨rfl, rfl⟩, _⟩ | ⟨rfl, rfl⟩ | ⟨n, rfl, hn, hundeclared⟩ | ⟨k, _, hk, hge⟩
  · exact .inl ⟨nofun, by simp⟩
  · exact .inl ⟨nofun, by simp⟩
  · exact .inl ⟨nofun, by simp⟩
  · exact .inl ⟨nofun, State.jumpTo_status s k⟩
  · exact .inl ⟨nofun, State.advance_status s⟩
  · exact .inl ⟨nofun, branchResolve_status s k _⟩
  · exact .inl ⟨nofun, branchResolve_status s k _⟩
  · exact .inr (.inl ⟨rfl, rfl⟩)
  · exact .inr (.inr ⟨n, hn, hundeclared, rfl⟩)
  · exact absurd (hr k hk) (Nat.not_lt.mpr hge)

/-- How a step leaves the run (40_execution_loop.md R111): it goes on, finishes at a `Finish`, or meets a fatal condition,
which is a pc outside the sequence or a reference to an undeclared label. -/
theorem step_status_cases {s t : State} (h : step s = .next t) :
    (s.prog[s.pc]? ≠ some .finish ∧ t.status = .running) ∨
    (s.prog[s.pc]? = some .finish ∧ t = s.halt) ∨
    (s.prog[s.pc]? ≠ some .finish ∧ (∃ r, t = s.raise r) ∧
      (s.prog.length ≤ s.pc ∨ ∃ i n, s.prog[s.pc]? = some i ∧ n ∈ i.refersTo ∧ s.Undeclared n)) := by
  obtain ⟨hrunning, ⟨⟨hwf, _⟩, _⟩, ⟨hnone, rfl⟩ | ⟨i, hi, hexec⟩⟩ := step_cases h
  · exact .inr (.inr ⟨by simp [hnone], ⟨_, rfl⟩, .inl (List.getElem?_eq_none_iff.mp hnone)⟩)
  · obtain ⟨hregisters, _⟩ := hwf i (List.mem_of_getElem? hi)
    rcases exec_status_cases hregisters hexec with ⟨hne, hstatus⟩ | ⟨rfl, rfl⟩ | ⟨n, hn, hundeclared, rfl⟩
    · exact .inl ⟨by simpa [hi] using hne, hstatus.trans hrunning⟩
    · exact .inr (.inl ⟨hi, rfl⟩)
    · exact .inr (.inr ⟨by simpa [hi] using Instr.ne_finish_of_mem_refersTo hn, ⟨_, rfl⟩, .inr ⟨i, n, hi, hn, hundeclared⟩⟩)

/-- A step ends the run normally exactly where it fetches a `Finish` (40_execution_loop.md R111, R112). -/
theorem step_finished_iff {s t : State} (h : step s = .next t) :
    t.status = .finished ↔ s.prog[s.pc]? = some .finish := by
  rcases step_status_cases h with ⟨hne, hstatus⟩ | ⟨hfinish, rfl⟩ | ⟨hne, ⟨r, rfl⟩, _⟩
  · simp [hne, hstatus]
  · simp [hfinish]
  · simp [hne]

/-- A step that finishes the run has only halted (43_finish_and_label.md R170). -/
theorem eq_halt_of_step_finished {s t : State} (h : step s = .next t) (hfinished : t.status = .finished) :
    t = s.halt := by
  rcases step_status_cases h with ⟨_, hstatus⟩ | ⟨_, ht⟩ | ⟨_, ⟨r, rfl⟩, _⟩
  · simp [hstatus] at hfinished
  · exact ht
  · simp at hfinished

/-- Settles O34, by the three ways a step leaves the run. -/
theorem onlyFinishEndsARunNormally : Obligations.OnlyFinishEndsARunNormally := by
  intro s t hstep
  refine ⟨step_finished_iff hstep, ?_⟩
  rcases step_status_cases hstep with ⟨_, hrunning⟩ | ⟨_, rfl⟩ | ⟨_, _, hfatal⟩
  · exact .inl hrunning
  · exact .inr (.inl (State.halt_status s))
  · exact .inr (.inr hfatal)

/-! ### The fetch -/

/-- The fetch is by position (40_execution_loop.md R102). -/
theorem fetch_ok {s : State} {i : Instr} (h : s.prog[s.pc]? = some i) : fetch s = .ok i := by
  simp [fetch, h]

/-- Settles O28: past the end the sequence has no instruction, and the step takes the fetch's fatal condition. -/
theorem fetchOutsideTheSequenceFaults : Obligations.FetchOutsideTheSequenceFaults := by
  intro s
  refine ⟨fun i => fetch_ok, fun hrunning hadmitted hend => ?_⟩
  rw [step_running hrunning hadmitted, List.getElem?_eq_none hend]
  rfl

/-! ### The output -/

/-- There is no step limit: a Running state with admitted inputs has a next step (40_execution_loop.md R113). -/
theorem step_next_of_running {s : State} (hrunning : s.status = .running) (hadmitted : s.Admitted) :
    ∃ t, step s = .next t := by
  rw [step_running hrunning hadmitted]
  cases s.prog[s.pc]? with
  | none => exact ⟨_, rfl⟩
  | some i => exact exec_next i s

theorem State.output_running {s : State} (h : s.status = .running) : s.output = none := by
  simp [State.output, h]

theorem State.output_finished {s : State} (h : s.status = .finished) : s.output = some (.finished s.hart s.acc) := by
  simp [State.output, h]

theorem State.output_faulted {s : State} {r : FaultReport} (h : s.status = .faulted r) :
    s.output = some (.faulted r) := by
  simp [State.output, h]

/-- Settles O41: the finishing step only halts, each status has its output, and the hart of a finished run is the
state's. -/
theorem outputOfARun : Obligations.OutputOfARun := by
  intro s
  refine ⟨fun t hstep => ⟨step_finished_iff hstep, fun hfinished => ?_⟩, fun hfinished => ?_,
    fun r => State.output_faulted, fun hrunning => ⟨State.output_running hrunning, step_next_of_running hrunning⟩⟩
  · obtain rfl := eq_halt_of_step_finished hstep hfinished
    exact ⟨State.halt_pc s, State.halt_acc s, State.reg_congr (State.halt_regs s)⟩
  · exact ⟨s.hart, State.output_finished hfinished, State.hart_pc s,
      (State.hart_x s 0 (by decide)).trans s.reg_zero, State.hart_x s⟩

end Sys2Proof.Machine

/-! Proofs of the family 41_arithmetic.md: the sums `add` and `addi` write, and the indices they fault on. -/

namespace Sys2Proof.Machine

/-! ### What the shared operations of the arithmetic instructions leave -/

@[simp] theorem conclude_ok (s t : State) : conclude s (.ok t) = .next t := rfl

@[simp] theorem conclude_error (s : State) (r : FaultReport) : conclude s (.error r) = .next (s.raise r) := rfl

@[simp] theorem State.advance_reg (s : State) (i : Nat) : s.advance.reg i = s.reg i :=
  State.reg_congr (State.advance_regs s) i

theorem writeAdvance_ok {d : Nat} (hd : d < 32) (s : State) (v : Word) :
    writeAdvance s d v = .ok (s.setReg d v).advance := by
  simp [writeAdvance, writeReg_ok v hd]

theorem writeAdvance_error {d : Nat} (hd : 32 ≤ d) (s : State) (v : Word) :
    writeAdvance s d v = .error (.registerIndexOutOfRange s.pc d) := by
  simp [writeAdvance, writeReg_error v hd]

theorem binaryOp_ok {d a b : Nat} (hd : d < 32) (ha : a < 32) (hb : b < 32) (f : Word → Word → Word) (s : State) :
    binaryOp f d a b s = .ok (s.setReg d (f (s.reg a) (s.reg b))).advance := by
  simp [binaryOp, readTwo, readReg_ok ha, readReg_ok hb, writeAdvance_ok hd]

theorem binaryOp_error {d a b : Nat} (h : 32 ≤ d ∨ 32 ≤ a ∨ 32 ≤ b) (f : Word → Word → Word) (s : State) :
    ∃ i, 32 ≤ i ∧ i ∈ [a, b, d] ∧ binaryOp f d a b s = .error (.registerIndexOutOfRange s.pc i) :=
  (binaryOp_cases f d a b s).resolve_left fun ⟨hd, ha, hb, _⟩ => by omega

/-! ### `add` -/

theorem exec_add (d a b : Nat) (s : State) :
    exec (.add d a b) s = conclude s (binaryOp (fun va vb => va + vb) d a b s) := rfl

/-- Settles O4: `add` is `binaryOp` with the sum of words, whose value is the sum modulo 2^64; what a register reads as
afterwards is `State.reg_setReg`. -/
theorem addWritesTheSum : Obligations.AddWritesTheSum := by
  intro d a b s
  refine ⟨rfl, fun hd ha hb => ⟨(s.setReg d (s.reg a + s.reg b)).advance, ?_, by simp, by simp, fun r _ => ?_⟩,
    fun hbad => ?_⟩
  · rw [exec_add, binaryOp_ok hd ha hb, conclude_ok]
  · rw [State.advance_reg, State.reg_setReg s d r _ hd]
    split
    · rfl
    · split
      · exact BitVec.toNat_add (s.reg a) (s.reg b)
      · rfl
  · obtain ⟨i, hi, hmem, herror⟩ := binaryOp_error hbad (fun va vb => va + vb) s
    exact ⟨i, hi, hmem, by rw [exec_add, herror, conclude_error]; rfl⟩

/-! ### `addi` -/

/-- The word sum with a sign-extended immediate is the sum with the mathematical integer modulo 2^64 (30_encoding.md
R75). -/
theorem toNat_add_sext64 (v : Word) (imm : Int) : ((v + sext64 imm).toNat : Int) = ((v.toNat : Int) + imm) % 2 ^ 64 := by
  have himm : ((sext64 imm).toNat : Int) = imm % 2 ^ 64 := Int.toNat_of_nonneg (Int.emod_nonneg imm (by decide))
  rw [BitVec.toNat_add]
  omega

theorem exec_addi_ok {d a : Nat} (hd : d < 32) (ha : a < 32) (imm : Int) (s : State) :
    exec (.addi d a imm) s = .next (s.setReg d (s.reg a + sext64 imm)).advance := by
  simp [exec, execAddi, readReg_ok ha, writeAdvance_ok hd]

/-- A source out of range is reported before the destination is looked at (60_exceptions.md R226). -/
theorem exec_addi_error {d a : Nat} (h : 32 ≤ d ∨ 32 ≤ a) (imm : Int) (s : State) :
    ∃ i, 32 ≤ i ∧ i ∈ [a, d] ∧ exec (.addi d a imm) s = .next (s.raise (.registerIndexOutOfRange s.pc i)) := by
  rcases Nat.lt_or_ge a 32 with ha | ha
  · have hd : 32 ≤ d := h.resolve_right (Nat.not_le.mpr ha)
    exact ⟨d, hd, by simp, by simp [exec, execAddi, readReg_ok ha, writeAdvance_error hd]⟩
  · exact ⟨a, ha, by simp, by simp [exec, execAddi, readReg_error ha]⟩

/-- Settles O6: the value written is `toNat_add_sext64`, and what a register reads as afterwards is `State.reg_setReg`. -/
theorem addImmediateWritesTheSum : Obligations.AddImmediateWritesTheSum := by
  intro d a imm s
  refine ⟨rfl, fun hd ha => ⟨_, exec_addi_ok hd ha imm s, by simp, by simp, fun r _ => ?_⟩,
    fun hbad => exec_addi_error hbad imm s⟩
  rw [State.advance_reg, State.reg_setReg s d r _ hd]
  split
  · rfl
  · split
    · exact toNat_add_sext64 (s.reg a) imm
    · rfl

end Sys2Proof.Machine

/-! Proofs of the family 42_control_transfer.md: what a label reference resolves to, the jump, and the two conditional
branches. -/

namespace Sys2Proof.Machine

/-! ### Resolving a label -/

/-- The scan answers the first `Label` of the name, read from position 0 on (42_control_transfer.md R150). -/
theorem resolve_eq_ok_iff {s : State} {name : String} {k : Nat} :
    resolve s name = .ok k ↔
      s.prog[k]? = some (Instr.label name) ∧ ∀ m, m < k → s.prog[m]? ≠ some (Instr.label name) := by
  rcases resolve_cases s name with ⟨j, hj, hlabel, hfirst⟩ | ⟨herror, hundeclared⟩
  · rw [hj, Except.ok.injEq]
    constructor
    · rintro rfl
      exact ⟨hlabel, hfirst⟩
    · rintro ⟨hk, hkfirst⟩
      rcases Nat.lt_trichotomy j k with hlt | heq | hgt
      · exact absurd hlabel (hkfirst j hlt)
      · exact heq
      · exact absurd hk (hfirst k hgt)
  · simp [herror, hundeclared k]

/-- The only fatal condition of the scan is UnresolvedLabel, exactly where the name is undeclared (60_exceptions.md
R221). -/
theorem resolve_eq_error_iff {s : State} {name : String} {r : FaultReport} :
    resolve s name = .error r ↔ r = .unresolvedLabel s.pc name ∧ s.Undeclared name := by
  rcases resolve_cases s name with ⟨k, hk, hlabel, _⟩ | ⟨herror, hundeclared⟩
  · have hdeclared : ¬s.Undeclared name := fun h => h k hlabel
    simp [hk, hdeclared]
  · simp [herror, hundeclared, eq_comm]

/-- Settles O9, from both answers of the scan. -/
theorem resolveScansForTheLabel : Obligations.ResolveScansForTheLabel :=
  fun _ _ => ⟨fun _ => resolve_eq_ok_iff, fun _ => resolve_eq_error_iff⟩

/-! ### `bge` and `bne` -/

/-- The branch-resolve protocol leaves the measurement state as `Scored` says, where identities are distinct
(40_execution_loop.md R106 to R108). -/
theorem branchResolve_scored {s : State} (hn : (s.preds.map Predictor.id).Nodup) (k : Nat) (o : Bool) :
    Scored s (branchResolve s k o) k o := by
  refine ⟨branchResolve_preds s k o, fun p hp => ?_, fun id site hother => branchResolve_record_other s k o hother⟩
  exact ⟨_, branchResolve_record_same k o hn hp, rfl, by simp [scoreRecord]⟩

theorem exec_bge (a b : Nat) (name : String) (s : State) :
    exec (.bge a b name) s = conclude s (branchOn outcomeGE a b name s) := rfl

theorem exec_bne (a b : Nat) (name : String) (s : State) :
    exec (.bne a b name) s = conclude s (branchOn outcomeNE a b name s) := rfl

section
variable {s : State} {name : String} {k a b : Nat}

/-- With its label declared and its sources in range a branch runs the protocol on the outcome of the two words read
(40_execution_loop.md R104). -/
theorem conclude_branchOn_ok (hk : s.LabelAt name k) (ha : a < 32) (hb : b < 32) (f : Word → Word → Bool) :
    conclude s (branchOn f a b name s) = .next (branchResolve s k (f (s.reg a) (s.reg b))) := by
  simp [branchOn, resolve_labelAt hk, readTwo, readReg_ok ha, readReg_ok hb]

/-- The label is resolved first, whatever the outcome would be (42_control_transfer.md R155). -/
theorem conclude_branchOn_undeclared (h : s.Undeclared name) (f : Word → Word → Bool) (a b : Nat) :
    conclude s (branchOn f a b name s) = .next (s.raise (.unresolvedLabel s.pc name)) := by
  simp [branchOn, resolve_undeclared h]

/-- A source out of range is reported before any predictor is queried (10_state.md R23). -/
theorem conclude_branchOn_error (hk : s.LabelAt name k) (h : 32 ≤ a ∨ 32 ≤ b) (f : Word → Word → Bool) :
    ∃ i, 32 ≤ i ∧ i ∈ [a, b] ∧
      conclude s (branchOn f a b name s) = .next (s.raise (.registerIndexOutOfRange s.pc i)) := by
  rcases readTwo_cases s a b with ⟨ha, hb, _⟩ | ⟨ha, hread⟩ | ⟨_, hb, hread⟩
  · omega
  · exact ⟨a, ha, by simp, by simp [branchOn, resolve_labelAt hk, hread]⟩
  · exact ⟨b, hb, by simp, by simp [branchOn, resolve_labelAt hk, hread]⟩

end

/-- Settles O12: `bge` is `branchOn` with the comparison of the words' values. -/
theorem branchIfGEIsUnsigned : Obligations.BranchIfGEIsUnsigned := by
  intro a b name s
  rw [exec_bge]
  refine ⟨rfl, fun k ha hb hk hn => ?_, fun hundeclared => conclude_branchOn_undeclared hundeclared outcomeGE a b,
    fun k hk hbad => conclude_branchOn_error hk hbad outcomeGE⟩
  exact ⟨_, conclude_branchOn_ok hk ha hb outcomeGE, by simp [outcomeGE], branchResolve_scored hn k _,
    branchResolve_status s k _, branchResolve_regs s k _⟩

/-- Settles O13: `bne` is `branchOn` with the inequality of the words. -/
theorem branchIfNEComparesWords : Obligations.BranchIfNEComparesWords := by
  intro a b name s
  rw [exec_bne]
  refine ⟨rfl, fun k ha hb hk hn => ?_, fun hundeclared => conclude_branchOn_undeclared hundeclared outcomeNE a b,
    fun k hk hbad => conclude_branchOn_error hk hbad outcomeNE⟩
  exact ⟨_, conclude_branchOn_ok hk ha hb outcomeNE, by simp [outcomeNE], branchResolve_scored hn k _,
    branchResolve_status s k _, branchResolve_regs s k _⟩

/-! ### `j` -/

theorem exec_j_ok {s : State} {name : String} {k : Nat} (hk : resolve s name = .ok k) :
    exec (.j name) s = .next (s.jumpTo k) := by
  simp [exec, execJ, hk]

theorem exec_j_error {s : State} {name : String} {r : FaultReport} (hr : resolve s name = .error r) :
    exec (.j name) s = .next (s.raise r) := by
  simp [exec, execJ, hr]

/-- Settles O11: `jumpTo` writes the pc alone, and `raise` the status alone. -/
theorem jumpGoesToItsLabel : Obligations.JumpGoesToItsLabel :=
  fun _ _ => ⟨rfl, fun _ hk => exec_j_ok (resolve_labelAt hk), fun h => exec_j_error (resolve_undeclared h)⟩

end Sys2Proof.Machine

/-! Proofs of the family 43_finish_and_label.md: what `finish` halts and what a `Label` advances. -/

namespace Sys2Proof.Machine

theorem exec_finish (s : State) : exec .finish s = .next s.halt := rfl

theorem exec_label (name : String) (s : State) : exec (.label name) s = .next s.advance := rfl

/-- A finished run takes no further step (40_execution_loop.md R101). -/
theorem step_of_finished {s : State} (hfinished : s.status = .finished) : step s = .fault .runFinished := by
  simp only [step, hfinished]

/-- Settles O17: `finish` is `State.halt`, which writes the status alone, and a step from a finished state is a fault. -/
theorem finishHalts : Obligations.FinishHalts := by
  refine ⟨rfl, fun s => ⟨exec_finish s, fun u hstep => ?_⟩⟩
  have hfault : step s.halt = .fault .runFinished := step_of_finished (State.halt_status s)
  exact nomatch hfault.symm.trans hstep

/-- Settles O18: a `Label` is `State.advance`, which writes the pc alone. -/
theorem labelOnlyAdvances : Obligations.LabelOnlyAdvances :=
  fun name s => ⟨rfl, exec_label name s⟩

end Sys2Proof.Machine

/-! Proofs of the family 44_predictors.md: what the six strategies predict, how the two counters move, and what a query reads
and changes. -/

namespace Sys2Proof.Machine

/-! ### The strategies without a table -/

@[simp] theorem query_alwaysTaken (id : String) (h : Hart) (target : Nat) (o : Bool) :
    query ⟨id, .alwaysTaken⟩ h target o = (o, ⟨id, .alwaysTaken⟩) := by
  simp [query, predict, update]

@[simp] theorem query_neverTaken (id : String) (h : Hart) (target : Nat) (o : Bool) :
    query ⟨id, .neverTaken⟩ h target o = (!o, ⟨id, .neverTaken⟩) := by
  simp [query, predict, update]

/-- The taken outcomes of a site are those `AlwaysTaken` scores (44_predictors.md R185). -/
theorem length_filter_taken (os : List Bool) : (os.filter fun o => o).length = os.count true := by
  simp [List.count, List.countP_eq_length_filter]

/-- The not-taken outcomes of a site are those `NeverTaken` scores, and the taken ones are the rest (44_predictors.md
R186). -/
theorem length_filter_not_taken (os : List Bool) : (os.filter fun o => !o).length = os.length - os.count true := by
  have hcount : (os.filter fun o => !o).length = os.count false := by
    simp [List.count, List.countP_eq_length_filter]
  have htotal : os.count false + os.count true = os.length := List.count_false_add_count_true os
  omega

/-- Settles O20: a query of either answers the outcome or its negation, so the score is a count of outcomes. -/
theorem alwaysAndNeverTaken : Obligations.AlwaysAndNeverTaken := by
  intro id h target
  refine ⟨fun o => ⟨query_alwaysTaken id h target o, query_neverTaken id h target o⟩, fun os => ⟨?_, ?_⟩⟩
  · simpa only [query_alwaysTaken] using length_filter_taken os
  · simpa only [query_neverTaken] using length_filter_not_taken os

/-- Settles O21: the comparison of positions is `predict` itself, and `update` is the identity on both. -/
theorem forwardAndBackwardTaken : Obligations.ForwardAndBackwardTaken :=
  fun _ _ _ _ => ⟨rfl, rfl⟩

/-! ### The counters -/

theorem query_oneBit (id : String) (table : Table Nat OneBit) (h : Hart) (target : Nat) (o : Bool) :
    query ⟨id, .oneBit table⟩ h target o =
      (predictOneBit (oneBitAt table h.pc) == o, ⟨id, .oneBit (tableSet table h.pc (updateOneBit o))⟩) := rfl

theorem query_twoBit (id : String) (table : Table Nat TwoBit) (h : Hart) (target : Nat) (o : Bool) :
    query ⟨id, .twoBit table⟩ h target o = (predictTwoBit (twoBitAt table h.pc) == o,
      ⟨id, .twoBit (tableSet table h.pc (updateTwoBit (twoBitAt table h.pc) o))⟩) := rfl

/-- "Prediction = the state itself" (44_predictors.md R195). -/
theorem predictOneBit_eq_decide (s : OneBit) : predictOneBit s = decide (s = .taken) := by
  cases s <;> rfl

/-- The upper half of the four states predicts taken (44_predictors.md R200). -/
theorem predictTwoBit_eq_decide (s : TwoBit) : predictTwoBit s = decide (2 ≤ (twoBitCode s).toNat) := by
  cases s <;> rfl

/-- One step up or down, saturating at the ends: the eight rows of the transition table (44_predictors.md R200). -/
theorem twoBitCode_updateTwoBit (s : TwoBit) (o : Bool) :
    (twoBitCode (updateTwoBit s o)).toNat =
      if o then min ((twoBitCode s).toNat + 1) 3 else (twoBitCode s).toNat - 1 := by
  cases o <;> cases s <;> rfl

/-- Settles O22: the table after the query is one write of the outcome at the branch's own position. -/
theorem oneBitCounterTransition : Obligations.OneBitCounterTransition := by
  intro id table h target o
  rw [query_oneBit]
  exact ⟨by rw [predictOneBit_eq_decide, oneBitAt], _, rfl, tableGet_tableSet_same table h.pc _,
    fun site hsite => tableGet_tableSet_other table _ hsite⟩

/-- Settles O23: the table after the query is one write at the branch's own position, of the state one step further. -/
theorem twoBitCounterTransition : Obligations.TwoBitCounterTransition := by
  intro id table h target o
  rw [query_twoBit]
  exact ⟨by rw [predictTwoBit_eq_decide, twoBitAt], _, _, rfl, tableGet_tableSet_same table h.pc _,
    twoBitCode_updateTwoBit (twoBitAt table h.pc) o, fun site hsite => tableGet_tableSet_other table _ hsite⟩

/-! ### What a query reads and writes -/

section
variable (p : Predictor) (h : Hart) (target : Nat) (o : Bool)

/-- The answer of a query is the comparison with the prior state's prediction (44_predictors.md R180). -/
theorem query_matched : (query p h target o).1 = (predict p.strategy h.pc target == o) := rfl

@[simp] theorem query_id : (query p h target o).2.id = p.id := rfl

@[simp] theorem query_strategy : (query p h target o).2.strategy = update p.strategy h.pc o := rfl

/-- Of the hart a query reads the pc alone (44_predictors.md R181). -/
theorem query_congr_hart {h h' : Hart} (hpc : h'.pc = h.pc) : query p h' target o = query p h target o := by
  simp only [query, hpc]

end

/-- An update does not change what is predicted at another site (44_predictors.md R202). -/
theorem predict_update_other (st : Strategy) (o : Bool) {site site' : Nat} (hne : site' ≠ site) (target : Nat) :
    predict (update st site o) site' target = predict st site' target :=
  predict_congr (update_variant st site o) (update_entry_other st site o hne) target

/-- After an update a 1-bit counter's entry is the outcome (44_predictors.md R195). -/
theorem update_oneBit_entry (table : Table Nat OneBit) (site : Nat) (o : Bool) :
    (update (.oneBit table) site o).entry site = some (.inl (updateOneBit o)) := by
  simp [update, Strategy.entry, tableGet_tableSet_same]

/-- After an update a 2-bit counter's entry is one step from the one before, or from the default (44_predictors.md
R200). -/
theorem update_twoBit_entry (table : Table Nat TwoBit) (site : Nat) (o : Bool) :
    (update (.twoBit table) site o).entry site = some (.inr (updateTwoBit (twoBitAt table site) o)) := by
  simp [update, Strategy.entry, tableGet_tableSet_same]

/-- The state of a 2-bit counter at a site is a function of its entry there. -/
theorem twoBitAt_congr {t t' : Table Nat TwoBit} {site : Nat}
    (he : (Strategy.twoBit t).entry site = (Strategy.twoBit t').entry site) : twoBitAt t site = twoBitAt t' site := by
  have hget : tableGet t site = tableGet t' site := Option.map_injective Sum.inr_injective he
  rw [twoBitAt, twoBitAt, hget]

/-- Two strategies of one variant with the same entry for a site have the same entry for it after an update: the entries of
other sites are not read (44_predictors.md R202). -/
theorem update_entry_congr {site : Nat} (o : Bool) : ∀ {st st' : Strategy}, st.variant = st'.variant →
    st.entry site = st'.entry site → (update st site o).entry site = (update st' site o).entry site
  | .alwaysTaken, .alwaysTaken, _, _ => rfl
  | .neverTaken, .neverTaken, _, _ => rfl
  | .forwardTaken, .forwardTaken, _, _ => rfl
  | .backwardTaken, .backwardTaken, _, _ => rfl
  | .oneBit t, .oneBit t', _, _ => by rw [update_oneBit_entry, update_oneBit_entry]
  | .twoBit t, .twoBit t', _, he => by rw [update_twoBit_entry, update_twoBit_entry, twoBitAt_congr he]

/-! ### What a step leaves of the measurement state -/

/-- An instruction that is no conditional branch leaves the predictors and the accuracy table alone (40_execution_loop.md
R107). -/
theorem exec_sameMeasurement_of_not_branch {i : Instr} {s t : State} (hi : i.isBranch = false) (h : exec i s = .next t) :
    SameMeasurement s t := by
  rcases exec_cases h with ⟨d, v, _, _, _, _, _, rfl⟩ | ⟨_, k, _, _, rfl⟩ | ⟨_, _, rfl⟩ |
    ⟨_, _, _, _, ⟨rfl, _⟩ | ⟨rfl, _⟩, _⟩ | ⟨_, rfl⟩ | ⟨_, rfl, _⟩ | ⟨_, rfl, _⟩
  · simp [SameMeasurement]
  · exact ⟨State.jumpTo_preds s k, State.jumpTo_acc s k⟩
  · exact ⟨State.advance_preds s, State.advance_acc s⟩
  · simp [Instr.isBranch] at hi
  · simp [Instr.isBranch] at hi
  · exact ⟨State.halt_preds s, State.halt_acc s⟩
  · exact ⟨State.raise_preds s _, State.raise_acc s _⟩
  · exact ⟨State.raise_preds s _, State.raise_acc s _⟩

/-- A step at no conditional branch leaves the predictors and the accuracy table alone, where it meets a fatal condition
too. -/
theorem step_sameMeasurement_of_not_branchAt {s t : State} (h : step s = .next t) (hno : ¬s.BranchAt s.pc) :
    SameMeasurement s t := by
  obtain ⟨_, _, ⟨_, rfl⟩ | ⟨i, hi, hexec⟩⟩ := step_cases h
  · exact ⟨State.raise_preds s _, State.raise_acc s _⟩
  · exact exec_sameMeasurement_of_not_branch (by simpa [State.BranchAt, hi] using hno) hexec

/-! ### The number of entries -/

/-- A canonical table holds one entry a key, so it is no longer than a list that holds every key it reads. -/
theorem table_length_le {κ ν : Type} [LinearOrder κ] {t : Table κ ν} (hsorted : TableSorted t) {keys : List κ}
    (hkeys : ∀ k, (tableGet t k).isSome = true → k ∈ keys) : t.length ≤ keys.length := by
  have hnodup : (t.map Prod.fst).Nodup := List.pairwise_map.mpr (hsorted.imp ne_of_lt)
  have hsubset : t.map Prod.fst ⊆ keys := by
    intro k hk
    obtain ⟨⟨_, v⟩, hmem, rfl⟩ := List.mem_map.mp hk
    exact hkeys _ (by simp [tableGet_of_mem hsorted hmem])
  simpa using (hnodup.subperm hsubset).length_le

/-- A strategy in canonical form has no more entries than there are sites it has visited. -/
theorem Strategy.entries_le {st : Strategy} (hcanonical : st.Canonical) {sites : List Nat}
    (hsites : ∀ site, st.visited site = true → site ∈ sites) : st.entries ≤ sites.length := by
  cases st with
  | alwaysTaken => exact Nat.zero_le _
  | neverTaken => exact Nat.zero_le _
  | forwardTaken => exact Nat.zero_le _
  | backwardTaken => exact Nat.zero_le _
  | oneBit t => exact table_length_le hcanonical (by simpa using hsites)
  | twoBit t => exact table_length_le hcanonical (by simpa using hsites)

/-- Only a counter has entries (44_predictors.md R183). -/
theorem Strategy.isCounter_of_visited {st : Strategy} {site : Nat} (h : st.visited site = true) : st.isCounter = true := by
  cases st with
  | oneBit t => rfl
  | twoBit t => rfl
  | _ => exact nomatch h

/-- Under the invariant a predictor has visited conditional branches only: a visited site has a record (10_state.md R34,
R35). -/
theorem State.Inv.branchAt_of_visited {s : State} (hinv : s.Inv) {p : Predictor} (hp : p ∈ s.preds) {site : Nat}
    (hv : p.strategy.visited site = true) : s.BranchAt site := by
  obtain ⟨_, _, hsound, _, hcounters⟩ := hinv
  have hrecord : (s.record p.id site).isSome = true :=
    (hcounters p hp (Strategy.isCounter_of_visited hv) site).symm.trans hv
  obtain ⟨r, hr⟩ := Option.isSome_iff_exists.mp hrecord
  obtain ⟨_, _, _, hbranch⟩ := hsound p.id site r hr
  exact hbranch

/-- `List.findIdxs` lists the positions of the conditional branches. -/
theorem State.mem_findIdxs_of_branchAt {s : State} {site : Nat} (h : s.BranchAt site) :
    site ∈ s.prog.findIdxs Instr.isBranch := by
  obtain ⟨i, hi, hbranch⟩ := Option.map_eq_some_iff.mp h
  obtain ⟨hlt, rfl⟩ := List.getElem?_eq_some_iff.mp hi
  exact List.mem_findIdxs_iff_exists_getElem_pos.mpr ⟨hlt, hbranch⟩

/-- A counter's lifetime bound (44_predictors.md R202): its sites are positions of conditional branches, each there once. -/
theorem State.Inv.entries_le {s : State} (hinv : s.Inv) {p : Predictor} (hp : p ∈ s.preds) :
    p.strategy.entries ≤ s.prog.countP Instr.isBranch := by
  have hsites : ∀ site, p.strategy.visited site = true → site ∈ s.prog.findIdxs Instr.isBranch :=
    fun _ hv => State.mem_findIdxs_of_branchAt (hinv.branchAt_of_visited hp hv)
  obtain ⟨_, ⟨_, _, hcanonical⟩, _⟩ := hinv
  calc p.strategy.entries
    _ ≤ (s.prog.findIdxs Instr.isBranch).length := Strategy.entries_le (hcanonical p hp) hsites
    _ = s.prog.countP Instr.isBranch := List.length_findIdxs

/-! ### The contract of a query -/

/-- Settles O26: a query is `predict` and `update` at the branch's own position, a step is the cases of `exec`, and the
bound on the entries comes from the invariant. -/
theorem queryContract : Obligations.QueryContract := by
  refine ⟨fun p h target o => ⟨?_, query_id p h target o, update_variant p.strategy h.pc o,
    fun h' hpc => query_congr_hart p target o hpc, fun site target' hne => ?_, fun q hvariant hentry => ?_,
    fun table htable => ?_, fun table htable => ?_, fun site hvisited => ?_⟩,
    fun s t hstep hno => (step_sameMeasurement_of_not_branchAt hstep hno).left, fun s hinv p hp => hinv.entries_le hp⟩
  · rw [query_matched, beq_iff_eq]
  · exact ⟨update_entry_other p.strategy h.pc o hne, predict_update_other p.strategy o hne target'⟩
  · exact ⟨by rw [query_matched, query_matched, predict_congr hvariant hentry], update_entry_congr o hvariant hentry⟩
  · rw [query_strategy, htable, update_oneBit_entry]
  · rw [query_strategy, htable, update_twoBit_entry, twoBitAt]
  · rw [query_strategy, update_visited, hvisited, Bool.true_or]

end Sys2Proof.Machine

/-! Proofs of the family 70_reset_and_hazards.md: the start state of a run. -/

namespace Sys2Proof.Machine

/-- R250: a register reads 0 at the start, `x0` by its meaning, one of `x1` to `x31` by the zero stored for it, and an index
of 32 or more because it names no register. -/
@[simp] theorem State.start_reg (params : Params) (prog : List Instr) (preds : List Predictor) (i : Nat) :
    (State.start params prog preds).reg i = 0 := by
  unfold State.reg
  split
  · rfl
  · split
    · exact Vector.getElem_replicate _
    · rfl

/-- Settles O1: one lemma per field of `State.start`, and `State.start_reg` for what the registers read as. -/
theorem startStateHasTheSpecsValues : Obligations.StartStateHasTheSpecsValues := fun params prog preds =>
  ⟨State.start_status params prog preds, State.start_pc params prog preds, State.start_reg params prog preds,
    State.start_acc params prog preds, State.start_preds params prog preds, State.start_prog params prog preds⟩

end Sys2Proof.Machine

/-! Proofs of the family `other`: what an instruction and a step leave alone, the frames of the eight instructions, and what a
step does to the inputs, the registers and the records. -/

namespace Sys2Proof

/-! ### The register an instruction names as its destination -/

/-- The destination of a term: only the three arithmetic forms have one (10_state.md R24). -/
def Instr.destination : Instr → Option Nat
  | .add d _ _ => some d
  | .sub d _ _ => some d
  | .addi d _ _ => some d
  | .j _ => none
  | .bge _ _ _ => none
  | .bne _ _ _ => none
  | .finish => none
  | .label _ => none

theorem Instr.exists_of_destination {i : Instr} {d : Nat} (h : i.destination = some d) :
    ∃ a b imm, i = .add d a b ∨ i = .sub d a b ∨ i = .addi d a imm := by
  cases i with
  | add d' a b => obtain rfl : d' = d := Option.some.inj h; exact ⟨a, b, 0, .inl rfl⟩
  | sub d' a b => obtain rfl : d' = d := Option.some.inj h; exact ⟨a, b, 0, .inr (.inl rfl)⟩
  | addi d' a imm => obtain rfl : d' = d := Option.some.inj h; exact ⟨a, 0, imm, .inr (.inr rfl)⟩
  | _ => exact nomatch h

end Sys2Proof

namespace Sys2Proof.Machine

/-- A write of another register, or of `x0`, is not seen (10_state.md R22). -/
theorem State.reg_setReg_other (s : State) {d : Nat} (hd : d < 32) (v : Word) {r : Nat} (h : r ≠ d ∨ r = 0) :
    (s.setReg d v).reg r = s.reg r := by
  rw [State.reg_setReg s d r v hd]
  rcases h with hne | rfl
  · split
    · next hr => rw [hr, State.reg_zero]
    · rfl
  · simp

/-- An instruction changes no register but its destination, and never `x0`, where it faults too. -/
theorem exec_reg {i : Instr} {s t : State} (h : exec i s = .next t) {r : Nat}
    (hr : i.destination ≠ some r ∨ r = 0) : t.reg r = s.reg r := by
  have arithmetic : ∀ {d : Nat} (v : Word), d < 32 → some d ≠ some r ∨ r = 0 → (s.setReg d v).advance.reg r = s.reg r := by
    intro d v hd hr
    rw [State.advance_reg]
    exact State.reg_setReg_other s hd v (hr.imp_left fun hne heq => hne (congrArg some heq.symm))
  rcases exec_cases h with ⟨d, v, _, _, _, rfl | rfl | rfl, hd, rfl⟩ | ⟨_, k, _, _, rfl⟩ | ⟨_, _, rfl⟩ |
    ⟨_, _, _, k, ⟨_, rfl⟩ | ⟨_, rfl⟩, _⟩ | ⟨_, rfl⟩ | ⟨_, rfl, _⟩ | ⟨_, rfl, _⟩
  · exact arithmetic v hd hr
  · exact arithmetic v hd hr
  · exact arithmetic v hd hr
  · exact State.reg_congr (State.jumpTo_regs s k) r
  · exact State.reg_congr (State.advance_regs s) r
  · exact State.reg_congr (branchResolve_regs s k _) r
  · exact State.reg_congr (branchResolve_regs s k _) r
  · exact State.reg_congr (State.halt_regs s) r
  · exact State.reg_congr (State.raise_regs s _) r
  · exact State.reg_congr (State.raise_regs s _) r

/-! ### The inputs of a run -/

theorem SameInputs.of_preds {s t : State} (hparams : t.params = s.params) (hprog : t.prog = s.prog)
    (hpreds : t.preds = s.preds) : SameInputs s t :=
  ⟨hparams, hprog, by rw [hpreds]⟩

/-- The protocol updates each predictor in place, keeping its identity and variant (40_execution_loop.md R107). -/
theorem branchResolve_sameInputs (s : State) (k : Nat) (o : Bool) : SameInputs s (branchResolve s k o) :=
  ⟨branchResolve_params s k o, branchResolve_prog s k o, by simp [update_variant]⟩

theorem exec_sameInputs {i : Instr} {s t : State} (h : exec i s = .next t) : SameInputs s t := by
  rcases exec_cases h with ⟨d, v, _, _, _, _, _, rfl⟩ | ⟨_, k, _, _, rfl⟩ | ⟨_, _, rfl⟩ |
    ⟨_, _, _, k, ⟨_, rfl⟩ | ⟨_, rfl⟩, _⟩ | ⟨_, rfl⟩ | ⟨_, rfl, _⟩ | ⟨_, rfl, _⟩
  · exact .of_preds (State.setReg_params s d v) (State.setReg_prog s d v) (State.setReg_preds s d v)
  · exact .of_preds rfl rfl rfl
  · exact .of_preds rfl rfl rfl
  · exact branchResolve_sameInputs s k _
  · exact branchResolve_sameInputs s k _
  · exact .of_preds rfl rfl rfl
  · exact .of_preds rfl rfl rfl
  · exact .of_preds rfl rfl rfl

theorem step_sameInputs {s t : State} (h : step s = .next t) : SameInputs s t := by
  obtain ⟨_, _, ⟨_, rfl⟩ | ⟨i, _, hexec⟩⟩ := step_cases h
  · exact .of_preds rfl rfl rfl
  · exact exec_sameInputs hexec

theorem SameInputs.prog {s t : State} (h : SameInputs s t) : t.prog = s.prog := h.2.1

/-- The identities stay, in their order (44_predictors.md R182). -/
theorem SameInputs.ids {s t : State} (h : SameInputs s t) : t.preds.map Predictor.id = s.preds.map Predictor.id := by
  obtain ⟨_, _, hpreds⟩ := h
  simpa [Function.comp_def] using congrArg (List.map Prod.fst) hpreds

/-! ### The measurement state -/

/-- What a conditional branch does: it runs the protocol towards the position of its label, or takes a fatal condition. -/
theorem exec_branch_cases {i : Instr} {s t : State} (hi : i.isBranch = true) (h : exec i s = .next t) :
    (∃ n k o, resolve s n = .ok k ∧ t = branchResolve s k o) ∨ ∃ r, t = s.raise r := by
  rcases exec_cases h with ⟨_, _, _, _, _, rfl | rfl | rfl, _⟩ | ⟨_, _, rfl, _⟩ | ⟨_, rfl, _⟩ |
    ⟨_, _, n, k, ⟨_, rfl⟩ | ⟨_, rfl⟩, hk⟩ | ⟨rfl, _⟩ | ⟨_, rfl, _⟩ | ⟨_, rfl, _⟩
  · exact nomatch hi
  · exact nomatch hi
  · exact nomatch hi
  · exact nomatch hi
  · exact nomatch hi
  · exact .inl ⟨n, k, _, hk, rfl⟩
  · exact .inl ⟨n, k, _, hk, rfl⟩
  · exact nomatch hi
  · exact .inr ⟨_, rfl⟩
  · exact .inr ⟨_, rfl⟩

/-- What a step does to the measurement state: nothing, where no conditional branch executes, or the protocol of the branch
at the pc towards the position of a label (40_execution_loop.md R104 to R107). -/
theorem step_measurement_cases {s t : State} (h : step s = .next t) :
    (SameMeasurement s t ∧ ¬(s.BranchAt s.pc ∧ t.status = .running)) ∨
    (s.BranchAt s.pc ∧ ∃ n k o, resolve s n = .ok k ∧ t = branchResolve s k o) := by
  by_cases hbranch : s.BranchAt s.pc
  · obtain ⟨_, _, ⟨hnone, _⟩ | ⟨i, hi, hexec⟩⟩ := step_cases h
    · simp [State.BranchAt, hnone] at hbranch
    · rcases exec_branch_cases (by simpa [State.BranchAt, hi] using hbranch) hexec with hscored | ⟨r, rfl⟩
      · exact .inr ⟨hbranch, hscored⟩
      · exact .inl ⟨⟨State.raise_preds s r, State.raise_acc s r⟩, by simp⟩
  · exact .inl ⟨step_sameMeasurement_of_not_branchAt h hbranch, fun ⟨hb, _⟩ => hbranch hb⟩

theorem SameMeasurement.record {s t : State} (h : SameMeasurement s t) (id : String) (site : Nat) :
    t.record id site = s.record id site :=
  State.record_congr h.right id site

/-- The target of a branch is the position of a `Label`, so it lies in the sequence and is not the branch's own
(42_control_transfer.md R165, R166). -/
theorem resolve_ok_of_branchAt {s : State} {name : String} {k : Nat} (hbranch : s.BranchAt s.pc)
    (hk : resolve s name = .ok k) : s.prog[k]? = some (Instr.label name) ∧ k < s.prog.length ∧ k ≠ s.pc := by
  obtain ⟨hlabel, _⟩ := resolve_eq_ok_iff.mp hk
  refine ⟨hlabel, (List.getElem?_eq_some_iff.mp hlabel).1, ?_⟩
  rintro rfl
  simp [State.BranchAt, hlabel, Instr.isBranch] at hbranch

end Sys2Proof.Machine

/-! The invariants: every step keeps them. -/

namespace Sys2Proof.Machine

/-! ### The pc -/

/-- A step from a position of the sequence leads to a position of it or to its end (10_state.md R28). -/
theorem exec_pcInRange {i : Instr} {s t : State} (hi : s.prog[s.pc]? = some i) (h : exec i s = .next t) : t.PcInRange := by
  have hlt : s.pc < s.prog.length := (List.getElem?_eq_some_iff.mp hi).1
  have target : ∀ {n k}, resolve s n = .ok k → k < s.prog.length := fun hk =>
    (List.getElem?_eq_some_iff.mp (resolve_eq_ok_iff.mp hk).1).1
  have branch : ∀ {n k} (o : Bool), resolve s n = .ok k → (branchResolve s k o).PcInRange := by
    intro n k o hk
    have := target hk
    simp only [State.PcInRange, branchResolve_pc, branchResolve_prog]
    split <;> omega
  rcases exec_cases h with ⟨d, v, _, _, _, _, _, rfl⟩ | ⟨_, k, _, hk, rfl⟩ | ⟨_, _, rfl⟩ |
    ⟨_, _, _, k, ⟨_, rfl⟩ | ⟨_, rfl⟩, hk⟩ | ⟨_, rfl⟩ | ⟨_, rfl, _⟩ | ⟨_, rfl, _⟩
  · simpa [State.PcInRange] using hlt
  · exact (target hk).le
  · exact hlt
  · exact branch _ hk
  · exact branch _ hk
  · exact hlt.le
  · exact hlt.le
  · exact hlt.le

theorem step_pcInRange {s t : State} (hs : s.PcInRange) (h : step s = .next t) : t.PcInRange := by
  obtain ⟨_, _, ⟨_, rfl⟩ | ⟨i, hi, hexec⟩⟩ := step_cases h
  · exact hs
  · exact exec_pcInRange hi hexec

/-! ### Where no conditional branch executes -/

/-- The clauses of the invariant but for the pc speak of the program, the predictors and the accuracy table alone. -/
theorem State.Inv.of_sameMeasurement {s t : State} (hs : s.Inv) (hprog : t.prog = s.prog) (hm : SameMeasurement s t)
    (hpc : t.PcInRange) : t.Inv := by
  obtain ⟨_, hcanonical, hsound, hcounts, hvisited⟩ := hs
  obtain ⟨hpreds, hacc⟩ := hm
  have hrecord : ∀ id site, t.record id site = s.record id site := State.record_congr hacc
  refine ⟨hpc, ?_, fun id site r hr => ?_, fun p hp q hq site => ?_, fun p hp => ?_⟩
  · rwa [State.TablesCanonical, hpreds, hacc]
  · rw [hrecord] at hr
    simpa only [State.BranchAt, hprog, hpreds] using hsound id site r hr
  · simpa only [hrecord] using hcounts p (hpreds ▸ hp) q (hpreds ▸ hq) site
  · simpa only [hrecord] using hvisited p (hpreds ▸ hp)

/-! ### The branch-resolve protocol -/

/-- A counter stays a counter (44_predictors.md R183). -/
theorem isCounter_update (st : Strategy) (site : Nat) (o : Bool) : (update st site o).isCounter = st.isCounter := by
  cases st <;> rfl

section
variable {s : State} (k : Nat) (o : Bool)

/-- A predictor after the protocol is one from before it, updated once. -/
theorem exists_of_mem_branchResolve_preds {q : Predictor} (hq : q ∈ (branchResolve s k o).preds) :
    ∃ p ∈ s.preds, q = { p with strategy := update p.strategy s.pc o } := by
  rw [branchResolve_preds] at hq
  obtain ⟨p, hp, rfl⟩ := List.mem_map.mp hq
  exact ⟨p, hp, rfl⟩

theorem branchResolve_tablesCanonical (hs : s.TablesCanonical) : (branchResolve s k o).TablesCanonical := by
  obtain ⟨hsorted, hinner, hpreds⟩ := hs
  obtain ⟨hsorted', hinner'⟩ := queryAll_canonical s.hart k o s.preds hsorted hinner
  rw [← branchResolve_acc] at hsorted' hinner'
  refine ⟨hsorted', hinner', fun q hq => ?_⟩
  obtain ⟨p, hp, rfl⟩ := exists_of_mem_branchResolve_preds k o hq
  exact update_canonical (hpreds p hp) s.pc o

/-- A record scored once more stays sound: the match counted is one of the queries counted (10_state.md R34). -/
theorem scoreRecord_sound {r : Option Accuracy} (hr : ∀ a, r = some a → a.correct ≤ a.total) (m : Bool) :
    (scoreRecord r m).correct ≤ (scoreRecord r m).total ∧ 0 < (scoreRecord r m).total := by
  refine ⟨?_, by simp [scoreRecord]⟩
  cases r with
  | none => cases m <;> simp [scoreRecord]
  | some a => have := hr a rfl; cases m <;> simp [scoreRecord] <;> omega

variable (hn : (s.preds.map Predictor.id).Nodup)
include hn

theorem branchResolve_recordsSound (hbranch : s.BranchAt s.pc) (hs : s.RecordsSound) :
    (branchResolve s k o).RecordsSound := by
  intro id site r hr
  have hids : (branchResolve s k o).preds.map Predictor.id = s.preds.map Predictor.id :=
    (branchResolve_sameInputs s k o).ids
  simp only [hids, State.BranchAt, branchResolve_prog]
  by_cases hthis : id ∈ s.preds.map Predictor.id ∧ site = s.pc
  · obtain ⟨hid, rfl⟩ := hthis
    obtain ⟨p, hp, rfl⟩ := List.mem_map.mp hid
    rw [branchResolve_record_same k o hn hp] at hr
    obtain rfl := Option.some.inj hr
    obtain ⟨hle, hpos⟩ := scoreRecord_sound (fun a ha => (hs p.id s.pc a ha).1) (predict p.strategy s.pc k == o)
    exact ⟨hle, hpos, hid, hbranch⟩
  · rw [branchResolve_record_other s k o (not_and_or.mp hthis)] at hr
    exact hs id site r hr

/-- Every registered predictor has one more query counted at the branch, so equal totals stay equal (10_state.md R34). -/
theorem branchResolve_sameCounts (hs : s.SameCounts) : (branchResolve s k o).SameCounts := by
  intro p' hp' q' hq' site
  obtain ⟨p, hp, rfl⟩ := exists_of_mem_branchResolve_preds k o hp'
  obtain ⟨q, hq, rfl⟩ := exists_of_mem_branchResolve_preds k o hq'
  have hbefore := hs p hp q hq site
  by_cases hsite : site = s.pc
  · subst hsite
    rw [branchResolve_record_same k o hn hp, branchResolve_record_same k o hn hq]
    simp only [Option.map_some, scoreRecord, hbefore]
  · rwa [branchResolve_record_other s k o (.inr hsite), branchResolve_record_other s k o (.inr hsite)]

/-- The branch's site gets a record and a counter's entry together (44_predictors.md R202). -/
theorem branchResolve_countersVisited (hs : s.CountersVisited) : (branchResolve s k o).CountersVisited := by
  intro p' hp' hcounter' site
  obtain ⟨p, hp, rfl⟩ := exists_of_mem_branchResolve_preds k o hp'
  have hcounter : p.strategy.isCounter = true := (isCounter_update p.strategy s.pc o).symm.trans hcounter'
  rw [update_visited, hcounter, hs p hp hcounter site]
  by_cases hsite : site = s.pc
  · subst hsite
    rw [branchResolve_record_same k o hn hp]
    simp
  · rw [branchResolve_record_other s k o (.inr hsite)]
    simp [hsite]

end

/-- Settles O51: the pc by the cases of `exec`, and the measurement state by whether the step ran the protocol. -/
theorem stepKeepsTheInvariant : Obligations.StepKeepsTheInvariant := by
  intro s t hinv hstep
  obtain ⟨_, ⟨_, hn⟩, _⟩ := step_cases hstep
  have hpc : t.PcInRange := step_pcInRange hinv.left hstep
  rcases step_measurement_cases hstep with ⟨hsame, _⟩ | ⟨hbranch, _, k, o, _, rfl⟩
  · exact hinv.of_sameMeasurement (step_sameInputs hstep).prog hsame hpc
  · obtain ⟨_, hcanonical, hsound, hcounts, hvisited⟩ := hinv
    exact ⟨hpc, branchResolve_tablesCanonical k o hcanonical, branchResolve_recordsSound k o hn hbranch hsound,
      branchResolve_sameCounts k o hn hcounts, branchResolve_countersVisited k o hn hvisited⟩

/-! ### Opposite heuristics -/

/-- The two scores of opposite answers to one query add up to it. -/
theorem scoreRecord_correct_add {r r' : Option Accuracy} {m m' : Bool} (hopposite : m' = !m)
    (hcounts : r.map Accuracy.total = r'.map Accuracy.total)
    (hsum : ∀ a a', r = some a → r' = some a' → a.correct + a'.correct = a.total) :
    (scoreRecord r m).correct + (scoreRecord r' m').correct = (scoreRecord r m).total := by
  subst hopposite
  match r, r' with
  | none, none => cases m <;> rfl
  | none, some a' => exact nomatch hcounts
  | some a, none => exact nomatch hcounts
  | some a, some a' =>
    have := hsum a a' rfl rfl
    cases m <;> simp [scoreRecord] <;> omega

/-- Two predictors that predict opposites at this branch keep scores that add up (44_predictors.md R189). -/
theorem branchResolve_scoresAddUp {s : State} {k : Nat} {o : Bool} {p q p' q' : Predictor}
    (hn : (s.preds.map Predictor.id).Nodup) (hcounts : s.SameCounts) (hp : p ∈ s.preds) (hq : q ∈ s.preds)
    (hp' : p'.id = p.id) (hq' : q'.id = q.id)
    (hopposite : predict q.strategy s.pc k = !predict p.strategy s.pc k) (hs : s.ScoresAddUp p q) :
    (branchResolve s k o).ScoresAddUp p' q' := by
  intro site r r' hr hr'
  rw [hp'] at hr
  rw [hq'] at hr'
  by_cases hsite : site = s.pc
  · subst hsite
    rw [branchResolve_record_same k o hn hp] at hr
    rw [branchResolve_record_same k o hn hq] at hr'
    obtain rfl := Option.some.inj hr
    obtain rfl := Option.some.inj hr'
    refine scoreRecord_correct_add ?_ (hcounts p hp q hq s.pc) (hs s.pc)
    rw [hopposite]
    cases predict p.strategy s.pc k <;> cases o <;> rfl
  · rw [branchResolve_record_other s k o (.inr hsite)] at hr hr'
    exact hs site r r' hr hr'

/-- A strategy without a table is what it was before an update (44_predictors.md R180). -/
theorem eq_of_update_eq {st st' : Strategy} {site : Nat} {o : Bool} (h : update st site o = st')
    (hst' : st'.isCounter = false) : st = st' := by
  subst h
  cases st with
  | oneBit t => exact nomatch hst'
  | twoBit t => exact nomatch hst'
  | _ => rfl

/-- ForwardTaken and BackwardTaken predict opposites, because a branch's target is not its own position
(44_predictors.md R189). -/
theorem predict_backward_eq_not_forward {site target : Nat} (hne : target ≠ site) :
    predict .backwardTaken site target = !predict .forwardTaken site target := by
  simp only [predict, ← decide_not, decide_eq_decide]
  omega

/-- Settles O53: at the branch opposite heuristics answer opposites, and no other record changes. -/
theorem stepKeepsOppositesAddingUp : Obligations.StepKeepsOppositesAddingUp := by
  intro s t hcounts hopposites hstep
  obtain ⟨_, ⟨_, hn⟩, _⟩ := step_cases hstep
  obtain ⟨halways, hforward⟩ := hopposites
  rcases step_measurement_cases hstep with ⟨⟨hpreds, hacc⟩, _⟩ | ⟨hbranch, _, k, o, hk, rfl⟩
  · have hrecord : ∀ id site, t.record id site = s.record id site := State.record_congr hacc
    simp only [State.OppositesAddUp, State.ScoresAddUp, hpreds, hrecord]
    exact ⟨halways, hforward⟩
  · have hne : k ≠ s.pc := (resolve_ok_of_branchAt hbranch hk).2.2
    refine ⟨fun p' hp' q' hq' hps hqs => ?_, fun p' hp' q' hq' hps hqs => ?_⟩
    all_goals
      obtain ⟨p, hp, rfl⟩ := exists_of_mem_branchResolve_preds k o hp'
      obtain ⟨q, hq, rfl⟩ := exists_of_mem_branchResolve_preds k o hq'
      have hpst := eq_of_update_eq hps rfl
      have hqst := eq_of_update_eq hqs rfl
    · exact branchResolve_scoresAddUp hn hcounts hp hq rfl rfl (by rw [hpst, hqst]; rfl) (halways p hp q hq hpst hqst)
    · exact branchResolve_scoresAddUp hn hcounts hp hq rfl rfl
        (by rw [hpst, hqst]; exact predict_backward_eq_not_forward hne) (hforward p hp q hq hpst hqst)

end Sys2Proof.Machine

/-! Runs: what the predictors and the accuracy table cannot change, and what their totals count. -/

namespace Sys2Proof.Machine

/-! ### An instruction under another measurement state -/

theorem exec_sub (d a b : Nat) (s : State) :
    exec (.sub d a b) s = conclude s (binaryOp (subtract s.params.subOrder) d a b s) := rfl

/-- The same hart with other predictors and another accuracy table. -/
def State.withMeasurement (s : State) (ps : List Predictor) (a : AccuracyTable) : State := { s with preds := ps, acc := a }

section
variable (s : State) (ps : List Predictor) (a : AccuracyTable)

theorem sameHart_withMeasurement : SameHart s (s.withMeasurement ps a) := ⟨rfl, rfl, rfl, rfl, rfl⟩

@[simp] theorem readReg_withMeasurement (i : Nat) : readReg (s.withMeasurement ps a) i = readReg s i := rfl

@[simp] theorem readTwo_withMeasurement (i j : Nat) : readTwo (s.withMeasurement ps a) i j = readTwo s i j := rfl

@[simp] theorem resolve_withMeasurement (name : String) : resolve (s.withMeasurement ps a) name = resolve s name := rfl

theorem setReg_withMeasurement (d : Nat) (v : Word) :
    (s.withMeasurement ps a).setReg d v = (s.setReg d v).withMeasurement ps a := by
  unfold State.setReg
  split
  · rfl
  · split <;> rfl

theorem writeAdvance_withMeasurement (d : Nat) (v : Word) :
    writeAdvance (s.withMeasurement ps a) d v = (writeAdvance s d v).map (·.withMeasurement ps a) := by
  rcases Nat.lt_or_ge d 32 with hd | hd
  · rw [writeAdvance_ok hd, writeAdvance_ok hd, setReg_withMeasurement]
    rfl
  · rw [writeAdvance_error hd, writeAdvance_error hd]
    rfl

theorem binaryOp_withMeasurement (f : Word → Word → Word) (d i j : Nat) :
    binaryOp f d i j (s.withMeasurement ps a) = (binaryOp f d i j s).map (·.withMeasurement ps a) := by
  simp only [binaryOp, readTwo_withMeasurement]
  cases readTwo s i j with
  | error e => rfl
  | ok values => exact writeAdvance_withMeasurement s ps a d _

/-- What concludes alike under another measurement state takes its fatal condition there too. -/
theorem conclude_withMeasurement {r : Except FaultReport State} {u : State} (h : conclude s r = .next u) :
    conclude (s.withMeasurement ps a) (r.map (·.withMeasurement ps a)) = .next (u.withMeasurement ps a) := by
  rcases conclude_cases h with rfl | ⟨e, rfl, rfl⟩ <;> rfl

/-- An instruction that is no conditional branch does the same under another measurement state (10_state.md R39). -/
theorem exec_withMeasurement {i : Instr} (hi : i.isBranch = false) {u : State} (h : exec i s = .next u) :
    exec i (s.withMeasurement ps a) = .next (u.withMeasurement ps a) := by
  cases i with
  | add d i j =>
    rw [exec_add, binaryOp_withMeasurement]
    exact conclude_withMeasurement s ps a h
  | sub d i j =>
    rw [exec_sub, binaryOp_withMeasurement]
    exact conclude_withMeasurement s ps a h
  | addi d i imm =>
    simp only [exec, execAddi, readReg_withMeasurement] at h ⊢
    cases hr : readReg s i with
    | error e => rw [hr] at h; exact conclude_withMeasurement s ps a h
    | ok v =>
      rw [hr] at h
      simp only [writeAdvance_withMeasurement]
      exact conclude_withMeasurement s ps a h
  | j name =>
    simp only [exec, execJ, resolve_withMeasurement] at h ⊢
    cases hr : resolve s name with
    | error e => rw [hr] at h; exact conclude_withMeasurement s ps a h
    | ok k => rw [hr] at h; exact conclude_withMeasurement s ps a h
  | bge i j name => exact nomatch hi
  | bne i j name => exact nomatch hi
  | finish => cases h; rfl
  | label name => cases h; rfl

/-- A conditional branch runs the protocol with the same target and outcome under another measurement state, or takes the
same fatal condition. -/
theorem conclude_branchOn_withMeasurement (f : Word → Word → Bool) (i j : Nat) (name : String) :
    (∃ k o, conclude s (branchOn f i j name s) = .next (branchResolve s k o) ∧
      conclude (s.withMeasurement ps a) (branchOn f i j name (s.withMeasurement ps a)) =
        .next (branchResolve (s.withMeasurement ps a) k o)) ∨
    ∃ r, conclude s (branchOn f i j name s) = .next (s.raise r) ∧
      conclude (s.withMeasurement ps a) (branchOn f i j name (s.withMeasurement ps a)) =
        .next ((s.raise r).withMeasurement ps a) := by
  simp only [branchOn, resolve_withMeasurement, readTwo_withMeasurement]
  cases resolve s name with
  | error e => exact .inr ⟨e, rfl, rfl⟩
  | ok k =>
    cases readTwo s i j with
    | error e => exact .inr ⟨e, rfl, rfl⟩
    | ok values => exact .inl ⟨k, _, rfl, rfl⟩

theorem exec_branch_withMeasurement {i : Instr} (hi : i.isBranch = true) :
    (∃ k o, exec i s = .next (branchResolve s k o) ∧
      exec i (s.withMeasurement ps a) = .next (branchResolve (s.withMeasurement ps a) k o)) ∨
    ∃ r, exec i s = .next (s.raise r) ∧ exec i (s.withMeasurement ps a) = .next ((s.raise r).withMeasurement ps a) := by
  cases i with
  | bge i j name => exact conclude_branchOn_withMeasurement s ps a outcomeGE i j name
  | bne i j name => exact conclude_branchOn_withMeasurement s ps a outcomeNE i j name
  | _ => exact nomatch hi

end

/-! ### Two states of one hart in lockstep -/

theorem SameHart.eq_withMeasurement {s t : State} (h : SameHart s t) : t = s.withMeasurement t.preds t.acc := by
  obtain ⟨hparams, hprog, hpc, hregs, hstatus⟩ := h
  rw [State.withMeasurement, hparams, hprog, hpc, hregs, hstatus]

/-- What an instruction does in two states of one hart: the same outside the measurement state, which it keeps, or the
branch-resolve protocol with one target and one outcome (10_state.md R39, 40_execution_loop.md R106). -/
theorem exec_lockstep {s t : State} (h : SameHart s t) (i : Instr) :
    (∃ u v, exec i s = .next u ∧ exec i t = .next v ∧ SameHart u v ∧ SameMeasurement s u ∧ SameMeasurement t v) ∨
    ∃ k o, exec i s = .next (branchResolve s k o) ∧ exec i t = .next (branchResolve t k o) := by
  rw [h.eq_withMeasurement]
  generalize t.preds = ps, t.acc = a
  cases hi : i.isBranch with
  | false =>
    obtain ⟨u, hu⟩ := exec_next i s
    exact .inl ⟨u, _, hu, exec_withMeasurement s ps a hi hu, sameHart_withMeasurement u ps a,
      exec_sameMeasurement_of_not_branch hi hu, ⟨rfl, rfl⟩⟩
  | true =>
    rcases exec_branch_withMeasurement s ps a hi with hscored | ⟨r, hs, ht⟩
    · exact .inr hscored
    · exact .inl ⟨_, _, hs, ht, sameHart_withMeasurement _ ps a, ⟨rfl, rfl⟩, ⟨rfl, rfl⟩⟩

/-- The verdict on the inputs is the verdict on the program, where identities are distinct (60_exceptions.md R234). -/
theorem refusal_of_nodup {s : State} (hn : (s.preds.map Predictor.id).Nodup) :
    s.refusal = (labelRefusal s.prog).or ((registerRefusal s.prog).or (immediateRefusal s.params s.prog)) := by
  have hid : identityRefusal s.preds = none := by simp [identityRefusal, firstRepeat_eq_none, hn]
  simp [State.refusal, hid]

/-- The steps of two states of one hart: both stop for one reason, or both lead on as `exec_lockstep` says. -/
theorem step_lockstep {s t : State} (h : SameHart s t) (hs : (s.preds.map Predictor.id).Nodup)
    (ht : (t.preds.map Predictor.id).Nodup) :
    (∃ f, step s = .fault f ∧ step t = .fault f) ∨ (∃ r, step s = .refused r ∧ step t = .refused r) ∨
    (∃ u v, step s = .next u ∧ step t = .next v ∧ SameHart u v ∧ SameMeasurement s u ∧ SameMeasurement t v) ∨
    ∃ k o, step s = .next (branchResolve s k o) ∧ step t = .next (branchResolve t k o) := by
  have hrefusal : t.refusal = s.refusal := by rw [refusal_of_nodup hs, refusal_of_nodup ht, h.1, h.2.1]
  obtain ⟨_, hprog, hpc, _, hstatus⟩ := id h
  cases hst : s.status with
  | finished => exact .inl ⟨_, step_of_finished hst, step_of_finished (hstatus ▸ hst)⟩
  | faulted r => exact .inl ⟨.runFaulted r, by simp [step, hst], by simp [step, ← hstatus, hst]⟩
  | running =>
    have htst : t.status = .running := hstatus ▸ hst
    cases hr : s.refusal with
    | some r => exact .inr (.inl ⟨r, step_refused hst hr, step_refused htst (hrefusal.trans hr)⟩)
    | none =>
      rw [step_running hst (refusal_eq_none.mp hr), step_running htst (refusal_eq_none.mp (hrefusal.trans hr)), ← hprog,
        ← hpc]
      cases s.prog[s.pc]? with
      | some i => exact .inr (.inr (exec_lockstep h i))
      | none =>
        refine .inr (.inr (.inl ⟨_, _, rfl, rfl, ?_, ⟨rfl, rfl⟩, ⟨rfl, rfl⟩⟩))
        rw [h.eq_withMeasurement]
        exact sameHart_withMeasurement _ _ _

/-! ### Two runs -/

/-- A relation that one step of two states keeps, a run of any length keeps. -/
theorem run_agree {rel : State → State → Prop}
    (hstep : ∀ s t, rel s t → OutcomesAgree rel (step s) (step t)) (n : Nat) {s t : State} (h : rel s t) :
    OutcomesAgree rel (Host.Core.run Sys2Proof.core n s) (Host.Core.run Sys2Proof.core n t) := by
  induction n generalizing s t with
  | zero => exact h
  | succ n ih =>
    have hagree := hstep s t h
    rw [run_succ, run_succ]
    cases hs : step s <;> cases ht : step t <;> rw [hs, ht] at hagree
    case next.next u v => exact ih hagree
    case fault.fault f g => exact hagree
    case refused.refused r q => exact hagree
    all_goals exact hagree.elim

theorem OutcomesAgree.imp {rel rel' : State → State → Prop} (himp : ∀ s t, rel s t → rel' s t)
    {a b : Host.Outcome State Fault Refusal} (h : OutcomesAgree rel a b) : OutcomesAgree rel' a b := by
  cases a <;> cases b
  case next.next u v => exact himp u v h
  case fault.fault f g => exact h
  case refused.refused r q => exact h
  all_goals exact h.elim

/-- The protocol moves the pc by its target and outcome alone. -/
theorem branchResolve_sameHart {s t : State} (h : SameHart s t) (k : Nat) (o : Bool) :
    SameHart (branchResolve s k o) (branchResolve t k o) := by
  obtain ⟨hparams, hprog, hpc, hregs, hstatus⟩ := h
  simp only [SameHart, branchResolve_params, branchResolve_prog, branchResolve_pc, branchResolve_regs,
    branchResolve_status]
  exact ⟨hparams, hprog, by rw [hpc], hregs, hstatus⟩

/-- Two states of one hart, each with distinct predictor identities. -/
def SameHartDistinct (s t : State) : Prop :=
  SameHart s t ∧ (s.preds.map Predictor.id).Nodup ∧ (t.preds.map Predictor.id).Nodup

theorem step_sameHartDistinct {s t : State} (h : SameHartDistinct s t) :
    OutcomesAgree SameHartDistinct (step s) (step t) := by
  obtain ⟨hhart, hs, ht⟩ := h
  have keep : ∀ {u v}, step s = .next u → step t = .next v → SameHart u v → SameHartDistinct u v := fun hu hv huv =>
    ⟨huv, (step_sameInputs hu).ids ▸ hs, (step_sameInputs hv).ids ▸ ht⟩
  rcases step_lockstep hhart hs ht with ⟨f, hf, hf'⟩ | ⟨r, hr, hr'⟩ | ⟨u, v, hu, hv, huv, _⟩ | ⟨k, o, hu, hv⟩
  · rw [hf, hf']
    exact rfl
  · rw [hr, hr']
    exact rfl
  · rw [hu, hv]
    exact keep hu hv huv
  · rw [hu, hv]
    exact keep hu hv (branchResolve_sameHart hhart k o)

/-- Settles O54, as a relation of two states that every step keeps. -/
theorem predictorsNeverChangeTheRun : Obligations.PredictorsNeverChangeTheRun := fun n _ _ hhart hs ht =>
  (run_agree (fun _ _ => step_sameHartDistinct) n ⟨hhart, hs, ht⟩).imp fun _ _ h => h.left

/-! ### The order of registration -/

theorem queryAll_sorted (h : Hart) (target : Nat) (o : Bool) (ps : List Predictor) {acc : AccuracyTable}
    (hs : TableSorted acc) : TableSorted (queryAll h target o ps acc).2 := by
  induction ps generalizing acc with
  | nil => exact hs
  | cons p ps ih => exact ih (tableSorted_tableSet hs _ _)

/-- The accuracy table after the protocol does not depend on the order of the predictors, because accumulations for two
identities commute (40_execution_loop.md R109). -/
theorem queryAll_perm (h : Hart) (target : Nat) (o : Bool) {ps qs : List Predictor} (hperm : ps.Perm qs)
    (hn : (ps.map Predictor.id).Nodup) {acc : AccuracyTable} (hs : TableSorted acc) :
    (queryAll h target o ps acc).2 = (queryAll h target o qs acc).2 := by
  induction hperm generalizing acc with
  | nil => rfl
  | cons p _ ih => exact ih (List.nodup_cons.mp hn).2 (tableSorted_tableSet hs _ _)
  | swap p q ps =>
    have hne : q.id ≠ p.id := by
      intro he
      simp [he] at hn
    simp only [queryAll, query]
    rw [accumulate_comm hs h.pc h.pc _ _ hne]
  | trans hperm _ ih ih' => exact (ih hn hs).trans (ih' ((hperm.map Predictor.id).nodup_iff.mp hn) hs)

/-- The protocol reads of the hart the pc alone (44_predictors.md R181). -/
theorem queryAll_congr_hart {h h' : Hart} (hpc : h'.pc = h.pc) (target : Nat) (o : Bool) (ps : List Predictor)
    (acc : AccuracyTable) : queryAll h' target o ps acc = queryAll h target o ps acc := by
  induction ps generalizing acc with
  | nil => rfl
  | cons p ps ih => simp only [queryAll, query_congr_hart p target o hpc, hpc, ih]

/-- Two states that differ in the order of their predictors at most, with distinct identities and a canonical accuracy
table. -/
def SameUpToOrderCanonical (s t : State) : Prop :=
  SameUpToOrder s t ∧ (s.preds.map Predictor.id).Nodup ∧ TableSorted s.acc

theorem branchResolve_sameUpToOrder {s t : State} (h : SameUpToOrderCanonical s t) (k : Nat) (o : Bool) :
    SameUpToOrderCanonical (branchResolve s k o) (branchResolve t k o) := by
  obtain ⟨⟨hhart, hacc, hperm⟩, hn, hsorted⟩ := h
  have hpc : t.pc = s.pc := hhart.2.2.1.symm
  refine ⟨⟨branchResolve_sameHart hhart k o, ?_, ?_⟩, (branchResolve_sameInputs s k o).ids ▸ hn, ?_⟩
  · rw [branchResolve_acc, branchResolve_acc, queryAll_congr_hart (h := s.hart) (h' := t.hart) hpc, ← hacc]
    exact queryAll_perm s.hart k o hperm hn hsorted
  · rw [branchResolve_preds, branchResolve_preds, hpc]
    exact hperm.map _
  · rw [branchResolve_acc]
    exact queryAll_sorted s.hart k o s.preds hsorted

theorem step_sameUpToOrder {s t : State} (h : SameUpToOrderCanonical s t) :
    OutcomesAgree SameUpToOrderCanonical (step s) (step t) := by
  obtain ⟨⟨hhart, hacc, hperm⟩, hn, hsorted⟩ := id h
  rcases step_lockstep hhart hn ((hperm.map Predictor.id).nodup_iff.mp hn) with ⟨f, hf, hf'⟩ | ⟨r, hr, hr'⟩ |
    ⟨u, v, hu, hv, huv, ⟨hpreds, huacc⟩, ⟨hpreds', hvacc⟩⟩ | ⟨k, o, hu, hv⟩
  · rw [hf, hf']
    exact rfl
  · rw [hr, hr']
    exact rfl
  · rw [hu, hv]
    refine ⟨⟨huv, by rw [huacc, hvacc, hacc], by rwa [hpreds, hpreds']⟩, by rwa [hpreds], by rwa [huacc]⟩
  · rw [hu, hv]
    exact branchResolve_sameUpToOrder h k o

/-- Settles O55, as a relation of two states that every step keeps; the accuracy tables are equal because accumulations
commute. -/
theorem registrationOrderHasNoEffect : Obligations.RegistrationOrderHasNoEffect := fun n _ _ h hn hsorted =>
  (run_agree (fun _ _ => step_sameUpToOrder) n ⟨h, hn, hsorted⟩).imp fun _ _ h => h.left

/-! ### The totals -/

/-- How often a predictor was queried at a site: 0 where it has no record (10_state.md R34). -/
def State.totalAt (s : State) (id : String) (site : Nat) : Nat := ((s.record id site).map Accuracy.total).getD 0

/-- A step adds one query at its site exactly where a conditional branch executes (10_state.md R34). -/
theorem step_totalAt {s t : State} (h : step s = .next t) {id : String} (hid : id ∈ s.preds.map Predictor.id)
    (site : Nat) :
    t.totalAt id site =
      s.totalAt id site + if s.pc = site ∧ s.BranchAt site ∧ t.status = .running then 1 else 0 := by
  obtain ⟨hrunning, ⟨_, hn⟩, _⟩ := step_cases h
  rcases step_measurement_cases h with ⟨hsame, hno⟩ | ⟨hbranch, _, k, o, _, rfl⟩
  · rw [if_neg (by rintro ⟨rfl, hvisit⟩; exact hno hvisit), State.totalAt, hsame.record]
    rfl
  · by_cases hsite : s.pc = site
    · subst hsite
      obtain ⟨p, hp, rfl⟩ := List.mem_map.mp hid
      rw [if_pos ⟨rfl, hbranch, (branchResolve_status s k o).trans hrunning⟩, State.totalAt,
        branchResolve_record_same k o hn hp]
      rfl
    · rw [if_neg (fun ⟨heq, _⟩ => hsite heq), State.totalAt, branchResolve_record_other s k o (.inr (Ne.symm hsite))]
      rfl

theorem branchVisits_succ {s t : State} (h : step s = .next t) (site n : Nat) : branchVisits site (n + 1) s =
    (if s.pc = site ∧ s.BranchAt site ∧ t.status = .running then 1 else 0) + branchVisits site n t := by
  simp only [branchVisits, h]

theorem run_totalAt {id : String} (site n : Nat) {s t : State} (hid : id ∈ s.preds.map Predictor.id)
    (hrun : Host.Core.run Sys2Proof.core n s = .next t) : t.totalAt id site = s.totalAt id site + branchVisits site n s := by
  induction n generalizing s with
  | zero => cases hrun; rfl
  | succ n ih =>
    rw [run_succ] at hrun
    cases hs : step s with
    | fault f => rw [hs] at hrun; exact nomatch hrun
    | refused r => rw [hs] at hrun; exact nomatch hrun
    | next u =>
      rw [hs] at hrun
      calc t.totalAt id site
        _ = u.totalAt id site + branchVisits site n u := ih ((step_sameInputs hs).ids ▸ hid) hrun
        _ = s.totalAt id site + branchVisits site (n + 1) s := by
          rw [step_totalAt hs hid, branchVisits_succ hs, Nat.add_assoc]

/-- Settles O56, by induction on the number of steps. -/
theorem totalsCountBranchExecutions : Obligations.TotalsCountBranchExecutions := fun n _ _ _ site hp hrun =>
  run_totalAt site n (List.mem_map_of_mem hp) hrun

end Sys2Proof.Machine

/-! The frames of the instructions, and what every step keeps. -/

namespace Sys2Proof.Machine

/-! ### The frames -/

/-- Settles O7: the destination is the one register that changes, and none of the three is a conditional branch. -/
theorem arithmeticFrame : Obligations.ArithmeticFrame := by
  intro d a b imm i s t hi hexec
  have hform : i.destination = some d ∧ i.isBranch = false := by rcases hi with rfl | rfl | rfl <;> exact ⟨rfl, rfl⟩
  obtain ⟨hdestination, hbranch⟩ := hform
  refine ⟨fun r hr => exec_reg hexec (hr.imp_left fun hne => ?_), exec_sameInputs hexec,
    exec_sameMeasurement_of_not_branch hbranch hexec⟩
  rw [hdestination]
  exact fun heq => hne (Option.some.inj heq).symm

/-- Settles O19: none of the three has a destination, and none is a conditional branch. -/
theorem jumpFinishLabelFrame : Obligations.JumpFinishLabelFrame := by
  intro name i s t hi hexec
  have hform : i.destination = none ∧ i.isBranch = false := by rcases hi with rfl | rfl | rfl <;> exact ⟨rfl, rfl⟩
  obtain ⟨hdestination, hbranch⟩ := hform
  exact ⟨fun r => exec_reg hexec (.inl (by simp [hdestination])), exec_sameInputs hexec,
    exec_sameMeasurement_of_not_branch hbranch hexec⟩

/-- What the protocol does to the predictor at a place of the list: one update at the branch's own position. -/
theorem branchResolve_preds_getElem? {s : State} (k : Nat) (o : Bool) {j : Nat} {p q : Predictor}
    (hp : s.preds[j]? = some p) (hq : (branchResolve s k o).preds[j]? = some q) :
    q.strategy = update p.strategy s.pc o := by
  rw [branchResolve_preds, List.getElem?_map, hp] at hq
  obtain rfl := Option.some.inj hq
  rfl

/-- Settles O14: a branch runs the protocol, which writes at its own site alone, or takes a fatal condition. -/
theorem branchFrame : Obligations.BranchFrame := by
  intro a b name i s t hi hexec
  have hform : i.destination = none ∧ i.isBranch = true := by rcases hi with rfl | rfl <;> exact ⟨rfl, rfl⟩
  obtain ⟨hdestination, hbranch⟩ := hform
  refine ⟨fun r => exec_reg hexec (.inl (by simp [hdestination])), exec_sameInputs hexec, ?_⟩
  rcases exec_branch_cases hbranch hexec with ⟨_, k, o, _, rfl⟩ | ⟨r, rfl⟩
  · refine ⟨fun id site => branchResolve_record_other s k o, fun j p q hp hq site target hne => ?_⟩
    rw [branchResolve_preds_getElem? k o hp hq]
    exact ⟨update_entry_other p.strategy s.pc o hne, predict_update_other p.strategy o hne target⟩
  · refine ⟨fun id site _ => State.record_congr (State.raise_acc s r) id site, fun j p q hp hq site target _ => ?_⟩
    obtain rfl : p = q := Option.some.inj (hp.symm.trans hq)
    exact ⟨rfl, rfl⟩

/-! ### What every step keeps -/

/-- Settles O36, from the inputs that `exec` keeps. -/
theorem stepKeepsTheInputs : Obligations.StepKeepsTheInputs := fun _ _ hstep => step_sameInputs hstep

/-- Settles O37: a register that changes is the destination of the instruction at the pc. -/
theorem onlyArithmeticWritesARegister : Obligations.OnlyArithmeticWritesARegister := by
  intro s t r hstep hchanged
  obtain ⟨_, _, ⟨_, rfl⟩ | ⟨i, hi, hexec⟩⟩ := step_cases hstep
  · exact absurd (State.reg_congr (State.raise_regs s _) r) hchanged
  · obtain ⟨hdestination, hr⟩ : i.destination = some r ∧ r ≠ 0 := by
      simpa only [not_or, not_not] using mt (exec_reg hexec) hchanged
    obtain ⟨a, b, imm, hform⟩ := Instr.exists_of_destination hdestination
    refine ⟨hr, a, b, imm, ?_⟩
    simpa only [hi, Option.some.injEq] using hform

/-- Settles O38: without a conditional branch at the pc a step keeps the measurement state. -/
theorem onlyBranchesAreMeasured : Obligations.OnlyBranchesAreMeasured := by
  intro s t hstep hchanged
  by_contra hno
  exact hchanged (step_sameMeasurement_of_not_branchAt hstep hno)

/-- A record scored once more counts no less (40_execution_loop.md R108). -/
theorem le_scoreRecord (r : Accuracy) (m : Bool) :
    r.total ≤ (scoreRecord (some r) m).total ∧ r.correct ≤ (scoreRecord (some r) m).correct := by
  simp [scoreRecord]

/-- Settles O39: a record is kept as it is, or scored once more by the protocol of its own branch. -/
theorem recordsAreNeverRemoved : Obligations.RecordsAreNeverRemoved := by
  intro s t id site r hstep hr
  obtain ⟨_, ⟨_, hn⟩, _⟩ := step_cases hstep
  rcases step_measurement_cases hstep with ⟨hsame, _⟩ | ⟨_, _, k, o, _, rfl⟩
  · exact ⟨r, (hsame.record id site).trans hr, le_rfl, le_rfl⟩
  · by_cases hthis : id ∈ s.preds.map Predictor.id ∧ site = s.pc
    · obtain ⟨hid, rfl⟩ := hthis
      obtain ⟨p, hp, rfl⟩ := List.mem_map.mp hid
      exact ⟨_, branchResolve_record_same k o hn hp, hr ▸ le_scoreRecord r _⟩
    · exact ⟨r, (branchResolve_record_other s k o (not_and_or.mp hthis)).trans hr, le_rfl, le_rfl⟩

/-! ### Fatal conditions -/

/-- The fatal conditions a step can meet: the fetch's, or an undeclared label's, with the pc of the instruction; a register
index is not among them, since the program is admitted (60_exceptions.md R221, R222, R232). -/
theorem step_faulted_cases {s t : State} {r : FaultReport} (h : step s = .next t) (hfault : t.status = .faulted r) :
    t = s.raise r ∧ (r = .fetchOutOfRange s.pc ∨ ∃ name, r = .unresolvedLabel s.pc name) := by
  obtain ⟨hrunning, ⟨⟨hwf, _⟩, _⟩, ⟨_, rfl⟩ | ⟨i, hi, hexec⟩⟩ := step_cases h
  · obtain rfl := Status.faulted.inj hfault
    exact ⟨rfl, .inl rfl⟩
  · obtain ⟨hregisters, _⟩ := hwf i (List.mem_of_getElem? hi)
    rcases exec_status_cases hregisters hexec with ⟨_, hstatus⟩ | ⟨_, rfl⟩ | ⟨n, _, _, rfl⟩
    · rw [hstatus, hrunning] at hfault
      exact nomatch hfault
    · exact nomatch hfault
    · obtain rfl := Status.faulted.inj hfault
      exact ⟨rfl, .inr ⟨n, rfl⟩⟩

/-- Settles O32: `raise` writes the status alone. -/
theorem faultChangesOnlyTheStatus : Obligations.FaultChangesOnlyTheStatus := by
  intro s t r hstep hfault
  obtain ⟨ht, hr⟩ := step_faulted_cases hstep hfault
  exact ⟨ht, hr.imp_right .inl⟩

/-- Settles O33: the fatal conditions a step can meet do not include it. -/
theorem admittedProgramNeverFaultsOnARegister : Obligations.AdmittedProgramNeverFaultsOnARegister := by
  intro s t pc i hstep hfault
  rcases (step_faulted_cases hstep hfault).2 with h | ⟨_, h⟩ <;> exact nomatch h

/-! ### Refusals -/

/-- In a Running state the step is refused exactly as the inputs are (60_exceptions.md R230). -/
theorem step_refused_iff {s : State} {r : Refusal} : step s = .refused r ↔ s.status = .running ∧ s.refusal = some r := by
  refine ⟨fun h => ?_, fun ⟨hrunning, hr⟩ => step_refused hrunning hr⟩
  cases hst : s.status with
  | finished => simp [step, hst] at h
  | faulted f => simp [step, hst] at h
  | running =>
    cases hr : s.refusal with
    | some q => simpa [step_refused hst hr] using h
    | none =>
      obtain ⟨t, ht⟩ := step_next_of_running hst (refusal_eq_none.mp hr)
      simp [ht] at h

/-- Settles O30: the verdict on the inputs is empty exactly where they are admitted. -/
theorem stepRefusesExactlyUnadmittedInputs : Obligations.StepRefusesExactlyUnadmittedInputs := by
  intro s hrunning
  rw [← refusal_eq_none, ← ne_eq, Option.ne_none_iff_exists']
  simp only [step_refused_iff, hrunning, true_and]

/-- A verdict is the first of the four that is not empty, and names what it is for (60_exceptions.md R231 to R234). -/
theorem refusal_eq_some {s : State} {r : Refusal} (h : s.refusal = some r) :
    (∃ n, r = .duplicateLabel n ∧ 2 ≤ (declaredNames s.prog).count n) ∨
    (∃ i, r = .registerIndex i ∧ 32 ≤ i ∧ ∃ x ∈ s.prog, i ∈ x.registers) ∨
    (∃ k, r = .immediateRange k ∧ ¬(s.params.immMin ≤ k ∧ k ≤ s.params.immMax) ∧ ∃ x ∈ s.prog, k ∈ x.immediates) ∨
    ∃ id, r = .duplicateIdentity id ∧ 2 ≤ (s.preds.map Predictor.id).count id := by
  simp only [State.refusal, Option.or_eq_some_iff] at h
  rcases h with h | ⟨_, h | ⟨_, h | ⟨_, h⟩⟩⟩ <;> obtain ⟨x, hx, rfl⟩ := Option.map_eq_some_iff.mp h
  · exact .inl ⟨x, rfl, firstRepeat_some hx⟩
  · have hbad := List.find?_some hx
    exact .inr (.inl ⟨x, rfl, of_decide_eq_true hbad, List.mem_flatMap.mp (List.mem_of_find?_eq_some hx)⟩)
  · have hbad := List.find?_some hx
    rw [Bool.not_eq_true', decide_eq_false_iff_not] at hbad
    exact .inr (.inr (.inl ⟨x, rfl, hbad, List.mem_flatMap.mp (List.mem_of_find?_eq_some hx)⟩))
  · exact .inr (.inr (.inr ⟨x, rfl, firstRepeat_some hx⟩))

/-- A name is declared as often as its `Label` stands in the program. -/
theorem count_label (prog : List Instr) (n : String) : prog.count (Instr.label n) = (declaredNames prog).count n := by
  rw [declaredNames, List.count_flatMap]
  induction prog with
  | nil => rfl
  | cons i rest ih =>
    rw [List.count_cons, ih, List.map_cons, List.sum_cons, Nat.add_comm]
    congr 1
    cases i <;> simp [Instr.declares, List.count_cons]

/-- What a list holds twice stands at two positions of it. -/
theorem exists_lt_of_two_le_count {α : Type} [DecidableEq α] {l : List α} {x : α} (h : 2 ≤ l.count x) :
    ∃ k m : Nat, k < m ∧ l[k]? = some x ∧ l[m]? = some x := by
  obtain ⟨k, m, hlt, hk, hm⟩ := List.duplicate_iff_exists_distinct_get.mp (List.duplicate_iff_two_le_count.mpr h)
  exact ⟨k, m, hlt, by simp [hk], by simp [hm]⟩

/-- Settles O31: each verdict names its own cause, and the four are of four kinds. -/
theorem refusalNamesItsCause : Obligations.RefusalNamesItsCause := by
  intro s
  have cause : ∀ {r}, step s = .refused r → _ := fun hstep => refusal_eq_some (step_refused_iff.mp hstep).2
  refine ⟨fun r hstep => ?_, fun n hstep => ?_, fun i hstep => ?_, fun k hstep => ?_, fun id hstep => ?_⟩
  · rcases cause hstep with ⟨n, rfl, _⟩ | ⟨i, rfl, _⟩ | ⟨k, rfl, _⟩ | ⟨id, rfl, _⟩
    · exact .inl ⟨n, rfl⟩
    · exact .inr (.inl ⟨i, rfl⟩)
    · exact .inr (.inr (.inl ⟨k, rfl⟩))
    · exact .inr (.inr (.inr ⟨id, rfl⟩))
  · have hcount : 2 ≤ (declaredNames s.prog).count n := by simpa using cause hstep
    exact exists_lt_of_two_le_count ((count_label s.prog n).symm ▸ hcount)
  · simpa using cause hstep
  · simpa using cause hstep
  · simpa using cause hstep

/-! ### Labels and branches -/

theorem lookup_eq_some_of_unique {table : List (String × Nat)} {n : String} {k : Nat} (hmem : (n, k) ∈ table)
    (hunique : ∀ m, (n, m) ∈ table → m = k) : table.lookup n = some k := by
  cases hlookup : table.lookup n with
  | none => exact absurd (List.lookup_eq_none_iff.mp hlookup (n, k) hmem) (by simp)
  | some m =>
    obtain ⟨l₁, l₂, rfl, _⟩ := List.lookup_eq_some_iff.mp hlookup
    exact congrArg some (hunique m (by simp))

/-- Settles O10: where no name is declared twice, a name has one entry in any such table. -/
theorem precomputedLabelTableEqualsTheScan : Obligations.PrecomputedLabelTableEqualsTheScan := by
  rintro s table ⟨_, hn⟩ htable name
  rcases resolve_cases s name with ⟨k, hk, hlabel, _⟩ | ⟨herror, hundeclared⟩
  · obtain ⟨_, hunique⟩ := labelAt_of_nodup hn hlabel
    rw [hk]
    exact lookup_eq_some_of_unique ((htable name k).mpr hlabel) fun m hm => hunique m ((htable name m).mp hm)
  · rw [herror]
    refine List.lookup_eq_none_iff.mpr fun ⟨n, k⟩ hmem => ?_
    rw [bne_iff_ne]
    rintro rfl
    exact hundeclared k ((htable _ k).mp hmem)

/-- Settles O16: a `Label` is no conditional branch. -/
theorem branchTargetIsAnotherPosition : Obligations.BranchTargetIsAnotherPosition := fun _ _ _ hbranch hk =>
  resolve_ok_of_branchAt hbranch hk

/-- With no predictor to query the protocol only moves the pc (40_execution_loop.md R107). -/
theorem branchResolve_of_no_predictor {s : State} (h : s.preds = []) (k : Nat) (o : Bool) :
    branchResolve s k o = { s with pc := if o then k else s.pc + 1 } := by
  obtain ⟨params, prog, preds, pc, regs, status, acc⟩ := s
  obtain rfl : preds = [] := h
  cases o <;> rfl

/-- Settles O15, with the outcome of each branch. -/
theorem emptyPredictorListOnlyMovesThePc : Obligations.EmptyPredictorListOnlyMovesThePc := by
  intro a b k name s hpreds ha hb hk
  rw [exec_bge, exec_bne, conclude_branchOn_ok hk ha hb, conclude_branchOn_ok hk ha hb,
    branchResolve_of_no_predictor hpreds, branchResolve_of_no_predictor hpreds]
  simp [outcomeGE, outcomeNE]

end Sys2Proof.Machine

/-! The 2-bit counter's hysteresis and the 1-bit counter's memory. -/

namespace Sys2Proof.Machine

/-- The strong one of the two 2-bit states that predict an outcome (10_state.md R35). -/
def TwoBit.strong (o : Bool) : TwoBit := if o then .stronglyTaken else .stronglyNotTaken

/-- The weak one of the two 2-bit states that predict an outcome (10_state.md R35). -/
def TwoBit.weak (o : Bool) : TwoBit := if o then .weaklyTaken else .weaklyNotTaken

@[simp] theorem predictTwoBit_strong (o : Bool) : predictTwoBit (.strong o) = o := by cases o <;> rfl
@[simp] theorem predictTwoBit_weak (o : Bool) : predictTwoBit (.weak o) = o := by cases o <;> rfl
@[simp] theorem updateTwoBit_strong_same (o : Bool) : updateTwoBit (.strong o) o = .strong o := by cases o <;> rfl
@[simp] theorem updateTwoBit_strong_not (o : Bool) : updateTwoBit (.strong (!o)) o = .weak (!o) := by cases o <;> rfl
@[simp] theorem updateTwoBit_weak_same (o : Bool) : updateTwoBit (.weak o) o = .strong o := by cases o <;> rfl

/-- Over outcomes without two `o` in a row a 2-bit counter that started strongly against `o` is there still, or is weakly
against `o` because `o` was the last outcome (44_predictors.md R200). -/
theorem foldl_updateTwoBit_cases (o : Bool) (os : List Bool) :
    [o, o] <:+: os ∨ os.foldl updateTwoBit (.strong !o) = .strong !o ∨
      (os.foldl updateTwoBit (.strong !o) = .weak !o ∧ [o] <:+ os) := by
  induction os using List.reverseRecOn with
  | nil => exact .inr (.inl rfl)
  | append_singleton os last ih =>
    rw [List.foldl_concat]
    rcases ih with ⟨before, after, rfl⟩ | hstate | ⟨hstate, hlast⟩
    · exact .inl ⟨before, after ++ [last], by simp⟩
    all_goals rw [hstate]; rcases Bool.eq_or_eq_not last o with rfl | rfl
    · exact .inr (.inr ⟨updateTwoBit_strong_not _, List.suffix_append os _⟩)
    · exact .inr (.inl (updateTwoBit_strong_same _))
    · obtain ⟨before, rfl⟩ := hlast
      exact .inl ⟨before, [], by simp⟩
    · exact .inr (.inl (updateTwoBit_weak_same _))

/-- From strongly against `o` a 2-bit counter comes to predict `o` only after two `o` in a row. -/
theorem two_in_a_row_of_predictTwoBit (o : Bool) {os : List Bool}
    (h : predictTwoBit (os.foldl updateTwoBit (.strong !o)) = o) : ∃ before after, os = before ++ [o, o] ++ after := by
  rcases foldl_updateTwoBit_cases o os with ⟨before, after, hrow⟩ | hstate | ⟨hstate, _⟩
  · exact ⟨before, after, hrow.symm⟩
  · simp [hstate] at h
  · simp [hstate] at h

/-- Settles O25: both clauses are the one lemma, for each outcome. -/
theorem twoBitCounterNeedsTwoInARow : Obligations.TwoBitCounterNeedsTwoInARow := fun _ =>
  ⟨two_in_a_row_of_predictTwoBit true, two_in_a_row_of_predictTwoBit false⟩

theorem predict_update_oneBit (table : Table Nat OneBit) (site target : Nat) (o : Bool) :
    predict (update (.oneBit table) site o) site target = o := by
  simp only [predict, update, oneBitAt, tableGet_tableSet_same]
  cases o <;> rfl

/-- Settles O24: the entry after a query is the outcome. -/
theorem oneBitCounterRepeatsTheLastOutcome : Obligations.OneBitCounterRepeatsTheLastOutcome := by
  intro id table h h' target target' o o' hpc
  refine ⟨predict_update_oneBit table h.pc target' o, ?_⟩
  rw [query_matched, query_strategy, hpc, predict_update_oneBit]

/-- Settles O52: it is the lifetime bound of a counter. -/
theorem counterTablesStayWithinTheBranches : Obligations.CounterTablesStayWithinTheBranches := fun _ hinv _ hp =>
  hinv.entries_le hp

end Sys2Proof.Machine

/-! `sub`, the order of operand faults, the step, and the start of a run. -/

namespace Sys2Proof.Machine

/-! ### `sub` -/

/-- The difference of words is the difference modulo 2^64, in the order named (41_arithmetic.md R135). -/
theorem toNat_subtract (order : SubOrder) (va vb : Word) : (subtract order va vb).toNat =
    if order = .src1MinusSrc2 then (va.toNat + (2 ^ 64 - vb.toNat)) % 2 ^ 64
    else (vb.toNat + (2 ^ 64 - va.toNat)) % 2 ^ 64 := by
  cases order <;> simp [subtract, BitVec.toNat_sub, Nat.add_comm]

/-- Settles O5: `sub` is `binaryOp` with the difference of words; what a register reads as afterwards is
`State.reg_setReg`. -/
theorem subWritesTheDifference : Obligations.SubWritesTheDifference := by
  intro d a b s
  refine ⟨rfl, fun hd ha hb =>
    ⟨(s.setReg d (subtract s.params.subOrder (s.reg a) (s.reg b))).advance, ?_, by simp, by simp, fun r _ => ?_⟩,
    fun hbad => ?_⟩
  · rw [exec_sub, binaryOp_ok hd ha hb, conclude_ok]
  · rw [State.advance_reg, State.reg_setReg s d r _ hd]
    split
    · rfl
    · split
      · exact toNat_subtract s.params.subOrder (s.reg a) (s.reg b)
      · rfl
  · obtain ⟨i, hi, hmem, herror⟩ := binaryOp_error hbad (subtract s.params.subOrder) s
    exact ⟨i, hi, hmem, by rw [exec_sub, herror, conclude_error]; rfl⟩

/-! ### The order of operand faults -/

section
variable {s : State} {d a b : Nat}

theorem readTwo_ok (ha : a < 32) (hb : b < 32) : readTwo s a b = .ok (s.reg a, s.reg b) := by
  simp [readTwo, readReg_ok ha, readReg_ok hb]

theorem readTwo_error_fst (ha : 32 ≤ a) : readTwo s a b = .error (.registerIndexOutOfRange s.pc a) := by
  simp [readTwo, readReg_error ha]

theorem readTwo_error_snd (ha : a < 32) (hb : 32 ≤ b) :
    readTwo s a b = .error (.registerIndexOutOfRange s.pc b) := by
  simp [readTwo, readReg_ok ha, readReg_error hb]

theorem binaryOp_of_readTwo_error {r : FaultReport} (h : readTwo s a b = .error r) (f : Word → Word → Word) :
    conclude s (binaryOp f d a b s) = .next (s.raise r) := by
  simp [binaryOp, h]

theorem binaryOp_destination_error (ha : a < 32) (hb : b < 32) (hd : 32 ≤ d) (f : Word → Word → Word) :
    conclude s (binaryOp f d a b s) = .next (s.raise (.registerIndexOutOfRange s.pc d)) := by
  simp [binaryOp, readTwo_ok ha hb, writeAdvance_error hd]

theorem branchOn_of_readTwo_error {name : String} {k : Nat} {r : FaultReport} (hk : s.LabelAt name k)
    (h : readTwo s a b = .error r) (f : Word → Word → Bool) :
    conclude s (branchOn f a b name s) = .next (s.raise r) := by
  simp [branchOn, resolve_labelAt hk, h]

theorem exec_addi_source_error (ha : 32 ≤ a) (imm : Int) :
    exec (.addi d a imm) s = .next (s.raise (.registerIndexOutOfRange s.pc a)) := by
  simp [exec, execAddi, readReg_error ha]

theorem exec_addi_destination_error (ha : a < 32) (hd : 32 ≤ d) (imm : Int) :
    exec (.addi d a imm) s = .next (s.raise (.registerIndexOutOfRange s.pc d)) := by
  simp [exec, execAddi, readReg_ok ha, writeAdvance_error hd]

end

/-- Settles O8: the label is resolved first, then `readTwo` reads the sources in order, and the destination is written
last. -/
theorem firstBadOperandIsReported : Obligations.FirstBadOperandIsReported := by
  intro d a b k imm name s
  rw [exec_bge, exec_bne, exec_add, exec_sub]
  refine ⟨fun h => ⟨conclude_branchOn_undeclared h _ a b, conclude_branchOn_undeclared h _ a b⟩, fun hk ha => ?_,
    fun hk ha hb => ?_, fun ha => ?_, fun ha hb => ?_, fun ha hb hd => ?_⟩
  · have hread := readTwo_error_fst (s := s) (b := b) ha
    exact ⟨branchOn_of_readTwo_error hk hread _, branchOn_of_readTwo_error hk hread _⟩
  · have hread := readTwo_error_snd (s := s) ha hb
    exact ⟨branchOn_of_readTwo_error hk hread _, branchOn_of_readTwo_error hk hread _⟩
  · have hread := readTwo_error_fst (s := s) (b := b) ha
    exact ⟨binaryOp_of_readTwo_error hread _, binaryOp_of_readTwo_error hread _, exec_addi_source_error ha imm⟩
  · have hread := readTwo_error_snd (s := s) ha hb
    exact ⟨binaryOp_of_readTwo_error hread _, binaryOp_of_readTwo_error hread _⟩
  · exact ⟨binaryOp_destination_error ha hb hd _, binaryOp_destination_error ha hb hd _,
      exec_addi_destination_error ha hd imm⟩

/-! ### The step -/

/-- Settles O27, from the step of a ready state. -/
theorem stepRunsTheFetchedInstruction : Obligations.StepRunsTheFetchedInstruction := fun _ _ hready =>
  step_of_ready hready

theorem step_of_faulted {s : State} {r : FaultReport} (h : s.status = .faulted r) : step s = .fault (.runFaulted r) := by
  simp only [step, h]

/-- A Running state's step is a refusal or a next state, never a fault (40_execution_loop.md R101). -/
theorem step_ne_fault_of_running {s : State} (h : s.status = .running) (f : Fault) : step s ≠ .fault f := by
  cases hr : s.refusal with
  | some r => simp [step_refused h hr]
  | none =>
    obtain ⟨t, ht⟩ := step_next_of_running h (refusal_eq_none.mp hr)
    simp [ht]

/-- Settles O29, by the three statuses. -/
theorem noStepAfterTheEnd : Obligations.NoStepAfterTheEnd := fun _ =>
  ⟨step_of_finished, fun _ => step_of_faulted, fun f hfault hrunning => step_ne_fault_of_running hrunning f hfault⟩

/-! ### The host's probe -/

/-- The operands of a table word are zero: the register `x0` and the immediate 0 (log entry 19). -/
theorem operands_of_decodeTableWord {nbits w : Nat} {i : Instr} (h : decodeTableWord nbits w = some i) :
    (∀ r ∈ i.registers, r = 0) ∧ ∀ k ∈ i.immediates, k = 0 := by
  have words : ∀ tag : BitVec 3, ∀ i ∈ (decode ⟨tag, (shapeOf tag).map Kind.zero⟩).toOption,
      (∀ r ∈ i.registers, r = 0) ∧ ∀ k ∈ i.immediates, k = 0 := by decide
  unfold decodeTableWord at h
  split at h
  · exact nomatch h
  · exact words _ i h

theorem Instr.declares_nodup (i : Instr) : i.declares.Nodup := by
  cases i <;> simp [Instr.declares]

/-- A program of `Finish`es and one well-formed term is admitted (60_exceptions.md R231 to R233). -/
theorem placeInstr_ready {s : State} {i : Instr} (hi : i.WellFormed s.params) (hn : (s.preds.map Predictor.id).Nodup) :
    (s.placeInstr i).Ready i := by
  have hdeclared : declaredNames (s.placeInstr i).prog = i.declares := by
    simp [declaredNames, Instr.declares, List.flatMap_replicate]
  refine ⟨State.placeInstr_status s i, ⟨⟨fun x hx => ?_, hdeclared ▸ Instr.declares_nodup i⟩, hn⟩, by simp⟩
  rcases List.mem_append.mp hx with hx | hx
  · obtain rfl := List.eq_of_mem_replicate hx
    exact ⟨nofun, nofun⟩
  · obtain rfl := List.mem_singleton.mp hx
    exact hi

/-- Settles O42: the probe's program is admitted, because the decoded instruction's operands are zero. -/
theorem probeRunsTheDecodedInstruction : Obligations.ProbeRunsTheDecodedInstruction := by
  intro s nbits w i hword hn hmin hmax
  obtain ⟨hregisters, himmediates⟩ := operands_of_decodeTableWord hword
  have hwf : i.WellFormed s.params :=
    ⟨fun r hr => by rw [hregisters r hr]; decide, fun k hk => by rw [himmediates k hk]; exact ⟨hmin, hmax⟩⟩
  have hplaced : s.withFetchWord nbits w = s.placeInstr i := by simp [State.withFetchWord, hword]
  rw [hplaced]
  exact ⟨State.placeInstr_pc s i, step_of_ready (placeInstr_ready hwf hn)⟩

/-! ### The start of a run -/

/-- Settles O2: the first fetch is past the end of the empty program. -/
theorem resetIsTheDefaultStart : Obligations.ResetIsTheDefaultStart :=
  ⟨rfl, (fetchOutsideTheSequenceFaults State.reset).2 rfl (by decide) le_rfl⟩

/-- Loading answers the start state where the verdict on it is empty (70_reset_and_hazards.md R253). -/
theorem load_eq_ok_iff {params : Params} {prog : List Instr} {preds : List Predictor} {s : State} :
    State.load params prog preds = .ok s ↔ s = State.start params prog preds ∧ s.Admitted := by
  rw [State.load, ← refusal_eq_none]
  cases hr : (State.start params prog preds).refusal with
  | some r =>
    simp only [reduceCtorEq, false_iff]
    rintro ⟨rfl, h⟩
    exact nomatch hr.symm.trans h
  | none =>
    simp only [Except.ok.injEq]
    exact ⟨fun h => h ▸ ⟨rfl, hr⟩, fun h => h.1.symm⟩

/-- Settles O40: `loadText` passes a parsed program to `load`, and answers W1 for any other text. -/
theorem loadingStartsAdmittedInputs : Obligations.LoadingStartsAdmittedInputs := fun _ _ _ _ =>
  ⟨load_eq_ok_iff, fun _ => ⟨fun h => by rw [State.loadText, h], fun _ _ h => by rw [State.loadText, h]⟩⟩

@[simp] theorem State.start_record (params : Params) (prog : List Instr) (preds : List Predictor) (id : String)
    (site : Nat) : (State.start params prog preds).record id site = none := rfl

/-- A strategy with an empty table is canonical and has visited no site (44_predictors.md R203). -/
theorem Strategy.canonical_of_fresh {st : Strategy} (h : st = st.variant) : st.Canonical := by
  rw [h]
  cases st with
  | oneBit t => exact List.Pairwise.nil
  | twoBit t => exact List.Pairwise.nil
  | _ => trivial

theorem Strategy.visited_of_fresh {st : Strategy} (h : st = st.variant) (site : Nat) : st.visited site = false := by
  rw [h]
  cases st <;> rfl

theorem start_inv {params : Params} {prog : List Instr} {preds : List Predictor}
    (h : ∀ p ∈ preds, p.strategy = p.strategy.variant) : (State.start params prog preds).Inv := by
  refine ⟨Nat.zero_le _, ⟨List.Pairwise.nil, nofun, fun p hp => Strategy.canonical_of_fresh (h p hp)⟩,
    fun _ _ _ => nofun, fun _ _ _ _ _ => rfl, fun p hp _ site => ?_⟩
  rw [Strategy.visited_of_fresh (h p hp), State.start_record]
  rfl

/-- Settles O50: with no record every clause on records is vacuous, and a fresh counter has no entry. -/
theorem startMeetsTheInvariant : Obligations.StartMeetsTheInvariant :=
  ⟨fun _ _ _ h => ⟨start_inv h, fun _ _ _ _ _ _ _ _ _ => nofun, fun _ _ _ _ _ _ _ _ _ => nofun⟩,
    start_inv (by decide)⟩

end Sys2Proof.Machine

/-! Decoding: tags with operand fields, and lines of text. -/

namespace Sys2Proof

/-! ### Tag and operand fields -/

@[simp] theorem decode_encode (i : Instr) : decode (encode i) = .ok i := by
  cases i <;> rfl

theorem eq_encode_of_decode {e : Encoded} {i : Instr} (h : decode e = .ok i) : e = encode i := by
  obtain ⟨tag, operands⟩ := e
  dsimp only [decode] at h
  split at h <;> cases h <;> rfl

/-- Settles O43: each shape the decoder accepts is the encoding of the term it answers. -/
theorem decodeInvertsEncode : Obligations.DecodeInvertsEncode := fun i _ =>
  ⟨eq_encode_of_decode, fun h => h ▸ decode_encode i⟩

/-- Every term's fields have its tag's shape (30_encoding.md R72, R83). -/
theorem kind_encode : ∀ i : Instr, (encode i).operands.map Operand.kind = shapeOf (encode i).tag
  | .add d a b => Laws.FieldShape.add d a b
  | .sub d a b => Laws.FieldShape.sub d a b
  | .addi d a k => Laws.FieldShape.addi d a k
  | .j l => Laws.FieldShape.j l
  | .bge a b l => Laws.FieldShape.bge a b l
  | .bne a b l => Laws.FieldShape.bne a b l
  | .finish => Laws.FieldShape.finish
  | .label n => Laws.FieldShape.label n

@[simp] theorem Operand.kind_eq_reg {o : Operand} : o.kind = .reg ↔ ∃ n, o = .reg n := by
  cases o <;> simp [Operand.kind]

@[simp] theorem Operand.kind_eq_imm {o : Operand} : o.kind = .imm ↔ ∃ k, o = .imm k := by
  cases o <;> simp [Operand.kind]

@[simp] theorem Operand.kind_eq_name {o : Operand} : o.kind = .name ↔ ∃ s, o = .name s := by
  cases o <;> simp [Operand.kind]

/-- Fields that begin with two registers, as those of five tags do (30_encoding.md R72). -/
theorem map_kind_eq_reg_reg {os : List Operand} {k : Kind} (h : os.map Operand.kind = [.reg, .reg, k]) :
    ∃ a b o, o.kind = k ∧ os = [.reg a, .reg b, o] := by
  simp only [List.map_eq_cons_iff, List.map_eq_nil_iff, Operand.kind_eq_reg] at h
  obtain ⟨_, _, rfl, ⟨a, rfl⟩, _, _, rfl, ⟨b, rfl⟩, o, _, rfl, ho, rfl⟩ := h
  exact ⟨a, b, o, ho, rfl⟩

theorem map_kind_eq_name {os : List Operand} (h : os.map Operand.kind = [.name]) : ∃ n, os = [.name n] := by
  simp only [List.map_eq_cons_iff, List.map_eq_nil_iff, Operand.kind_eq_name] at h
  obtain ⟨_, _, rfl, ⟨n, rfl⟩, rfl⟩ := h
  exact ⟨n, rfl⟩

/-- Fields of a tag's shape are those of a term (30_encoding.md R72, R74). -/
theorem exists_eq_encode {e : Encoded} (h : e.operands.map Operand.kind = shapeOf e.tag) : ∃ i, e = encode i := by
  obtain ⟨tag, operands⟩ := e
  dsimp only [shapeOf] at h
  split at h
  · obtain ⟨d, a, o, ho, rfl⟩ := map_kind_eq_reg_reg h
    obtain ⟨b, rfl⟩ := Operand.kind_eq_reg.mp ho
    exact ⟨.add d a b, rfl⟩
  · obtain ⟨d, a, o, ho, rfl⟩ := map_kind_eq_reg_reg h
    obtain ⟨b, rfl⟩ := Operand.kind_eq_reg.mp ho
    exact ⟨.sub d a b, rfl⟩
  · obtain ⟨d, a, o, ho, rfl⟩ := map_kind_eq_reg_reg h
    obtain ⟨k, rfl⟩ := Operand.kind_eq_imm.mp ho
    exact ⟨.addi d a k, rfl⟩
  · obtain ⟨l, rfl⟩ := map_kind_eq_name h
    exact ⟨.j l, rfl⟩
  · obtain ⟨a, b, o, ho, rfl⟩ := map_kind_eq_reg_reg h
    obtain ⟨l, rfl⟩ := Operand.kind_eq_name.mp ho
    exact ⟨.bge a b l, rfl⟩
  · obtain ⟨a, b, o, ho, rfl⟩ := map_kind_eq_reg_reg h
    obtain ⟨l, rfl⟩ := Operand.kind_eq_name.mp ho
    exact ⟨.bne a b l, rfl⟩
  · obtain rfl := List.map_eq_nil_iff.mp h
    exact ⟨.finish, rfl⟩
  · obtain ⟨n, rfl⟩ := map_kind_eq_name h
    exact ⟨.label n, rfl⟩

/-- Settles O44: what decodes is the encoding of a term, whose fields have the shape. -/
theorem otherShapesAreRefused : Obligations.OtherShapesAreRefused := by
  intro e
  cases h : decode e with
  | ok i =>
    obtain rfl := eq_encode_of_decode h
    simp [kind_encode i]
  | error r =>
    refine ⟨fun _ hshape => ?_, fun _ => ⟨r, rfl⟩⟩
    obtain ⟨i, rfl⟩ := exists_eq_encode hshape
    simp at h

/-- Settles O45, by evaluating the decoder on the eight words. -/
theorem opcodeTableWordsDecode : Obligations.OpcodeTableWordsDecode := by
  unfold Obligations.OpcodeTableWordsDecode
  decide

/-- Settles O46, by evaluating the decoder on the ten lines. -/
theorem specLinesDecode : Obligations.SpecLinesDecode := by
  unfold Obligations.SpecLinesDecode
  decide

/-! ### The line of a term -/

/-- A `Label`'s line is its name and a colon (30_encoding.md R86). -/
theorem lineOf_encode_label (n : String) : lineOf (encode (.label n)) = n.toList ++ [':'] := by
  simp [encode, lineOf, operandText, Operand.text]

theorem decodeChars_finish (p : Params) : decodeChars p (lineOf (encode .finish)) = .ok (some .finish) := rfl

/-- A term with operands, and no `Label`, has an opcode token of its own before them (30_encoding.md R74, R87, R89). -/
theorem lineOf_encode_operands {i : Instr} (hlabel : i.declares = []) (h0 : (encode i).operands ≠ []) :
    ∃ op, isLabelName op = true ∧ opcodes.lookup (String.ofList op) = some (encode i).tag ∧
      lineOf (encode i) = op ++ ' ' :: operandText (encode i).operands := by
  cases i with
  | add d a b => exact ⟨['a', 'd', 'd'], by decide, rfl, rfl⟩
  | sub d a b => exact ⟨['s', 'u', 'b'], by decide, rfl, rfl⟩
  | addi d a k => exact ⟨['a', 'd', 'd', 'i'], by decide, rfl, rfl⟩
  | j l => exact ⟨['j'], by decide, rfl, rfl⟩
  | bge a b l => exact ⟨['b', 'g', 'e'], by decide, rfl, rfl⟩
  | bne a b l => exact ⟨['b', 'n', 'e'], by decide, rfl, rfl⟩
  | finish => exact absurd rfl h0
  | label n => exact nomatch hlabel

theorem spellable_iff {p : Params} {i : Instr} : i.spellable p = true ↔
    (∀ k ∈ i.immediates, (Operand.imm k).Spellable p) ∧ (∀ n ∈ i.declares, isLabelName n.toList = true) ∧
      ∀ n ∈ i.refersTo, (Operand.name n).Spellable p := by
  simp [Instr.spellable, Operand.Spellable, and_assoc]

/-- An operand of a term that is no `Label` is a register, an immediate or a reference of it (30_encoding.md R71, R83). -/
theorem mem_operands_cases {i : Instr} (hlabel : i.declares = []) {o : Operand} (ho : o ∈ (encode i).operands) :
    (∃ r, o = .reg r) ∨ (∃ k ∈ i.immediates, o = .imm k) ∨ ∃ n ∈ i.refersTo, o = .name n := by
  cases i with
  | label n => exact nomatch hlabel
  | finish => exact nomatch ho
  | _ =>
    simp only [encode, List.mem_cons, List.not_mem_nil, or_false] at ho
    simp only [Instr.immediates, Instr.refersTo, List.mem_singleton, exists_eq_left]
    tauto

/-- The operands of a spellable term that is no `Label` are spellable tokens (30_encoding.md R80, R92). -/
theorem operands_spellable {p : Params} {i : Instr} (hlabel : i.declares = []) (h : i.spellable p = true) :
    ∀ o ∈ (encode i).operands, o.Spellable p := by
  obtain ⟨himmediates, _, hreferences⟩ := spellable_iff.mp h
  intro o ho
  obtain ⟨r, rfl⟩ | ⟨k, hk, rfl⟩ | ⟨n, hn, rfl⟩ := mem_operands_cases hlabel ho
  · trivial
  · exact himmediates k hk
  · exact hreferences n hn

/-- Settles O47: a `Label`'s line by its colon, `finish` by evaluation, and the other lines operand by operand. -/
theorem textRoundTrip : Obligations.TextRoundTrip := by
  intro p i h
  rw [decodeLine, encodeLine, String.toList_ofList]
  have operands : i.declares = [] → (encode i).operands ≠ [] → decodeChars p (lineOf (encode i)) = .ok (some i) := by
    intro hlabel h0
    obtain ⟨op, hop, htag, hline⟩ := lineOf_encode_operands hlabel h0
    rw [hline, decodeChars_operands hop htag h0 (operands_spellable hlabel h), decode_encode]
    rfl
  cases i with
  | label n =>
    obtain ⟨_, hdeclares, _⟩ := spellable_iff.mp h
    have hname : isLabelName n.toList = true := hdeclares n (List.mem_singleton.mpr rfl)
    rw [lineOf_encode_label, decodeChars_label p hname, String.ofList_toList]
  | finish => exact decodeChars_finish p
  | _ => exact operands rfl nofun

/-! ### The lines of a program -/

/-- What a list of lines decodes to, line by line (30_encoding.md R85, R91). -/
theorem decodeLines_cons_ok {p : Params} {l : List Char} {ls : List (List Char)} {n : Nat} {prog : List Instr}
    (h : decodeLines p (l :: ls) n = .ok prog) :
    ∃ i rest, decodeChars p l = .ok i ∧ decodeLines p ls (n + 1) = .ok rest ∧ prog = i.toList ++ rest := by
  rw [decodeLines] at h
  cases hi : decodeChars p l with
  | error e => simp [hi] at h
  | ok i =>
    cases hrest : decodeLines p ls (n + 1) with
    | error e => simp [hi, hrest] at h
    | ok rest => exact ⟨i, rest, rfl, rfl, by simpa [hi, hrest, eq_comm] using h⟩

/-- A line that decodes gives no term where it is empty, and one where it is not (30_encoding.md R92). -/
theorem decodeChars_ok_cases {p : Params} {l : List Char} {i : Option Instr} (h : decodeChars p l = .ok i) :
    (l = [] ∧ i = none) ∨ (l ≠ [] ∧ ∃ x, i = some x) := by
  cases i with
  | none => exact .inl ⟨decodeChars_blank h, rfl⟩
  | some x =>
    refine .inr ⟨?_, x, rfl⟩
    rintro rfl
    simp [decodeChars] at h

theorem decodeLines_length {p : Params} {lines : List (List Char)} {n : Nat} {prog : List Instr}
    (h : decodeLines p lines n = .ok prog) : prog.length = lines.countP fun l => l ≠ [] := by
  induction lines generalizing n prog with
  | nil => cases h; rfl
  | cons l ls ih =>
    obtain ⟨i, rest, hi, hrest, rfl⟩ := decodeLines_cons_ok h
    rcases decodeChars_ok_cases hi with ⟨rfl, rfl⟩ | ⟨hl, x, rfl⟩
    · simp [ih hrest]
    · simp [ih hrest, hl]

/-- The term of a line stands at the position that is the number of lines before it that are not blank. -/
theorem decodeLines_getElem? {p : Params} {lines : List (List Char)} {n : Nat} {prog : List Instr}
    (h : decodeLines p lines n = .ok prog) {k : Nat} {line : List Char} (hk : lines[k]? = some line) (hline : line ≠ []) :
    ∃ i, decodeChars p line = .ok (some i) ∧ prog[(lines.take k).countP (fun l => l ≠ [])]? = some i := by
  induction lines generalizing n prog k with
  | nil => exact nomatch hk
  | cons l ls ih =>
    obtain ⟨i, rest, hi, hrest, rfl⟩ := decodeLines_cons_ok h
    cases k with
    | zero =>
      obtain rfl : l = line := Option.some.inj hk
      rcases decodeChars_ok_cases hi with ⟨rfl, _⟩ | ⟨_, x, rfl⟩
      · exact absurd rfl hline
      · exact ⟨x, hi, rfl⟩
    | succ k =>
      obtain ⟨x, hx, hpos⟩ := ih hrest (by simpa using hk)
      refine ⟨x, hx, ?_⟩
      rcases decodeChars_ok_cases hi with ⟨rfl, rfl⟩ | ⟨hl, y, rfl⟩
      · simpa using hpos
      · simpa [hl] using hpos

/-- Settles O48, by induction on the lines. -/
theorem linesBecomePositions : Obligations.LinesBecomePositions := fun _ _ _ _ h =>
  ⟨decodeLines_length h, fun _ _ hk hline => decodeLines_getElem? h hk hline⟩

/-! ### Which names can be referenced -/

/-- A name that a line may refer to is no register token and no immediate token (30_encoding.md R80, R92). -/
def Operand.NotNamedLikeAValue (p : Params) : Operand → Prop
  | .reg _ => True
  | .imm _ => True
  | .name s => parseReg s.toList = none ∧ parseImm p s.toList = none

/-- A token is read as a name only where it is neither a register nor an immediate. -/
theorem parseOperand_notNamedLikeAValue {p : Params} {cs : List Char} {o : Operand} (h : parseOperand p cs = .ok o) :
    o.NotNamedLikeAValue p := by
  unfold parseOperand at h
  split at h
  · cases h; trivial
  · next hreg =>
    split at h
    · cases h; trivial
    · next himm =>
      split at h
      · cases h
        simpa [Operand.NotNamedLikeAValue] using ⟨hreg, himm⟩
      · cases h

theorem parseOperands_notNamedLikeAValue {p : Params} {ts : List (List Char)} {os : List Operand}
    (h : parseOperands p ts = .ok os) : ∀ o ∈ os, o.NotNamedLikeAValue p := by
  induction ts generalizing os with
  | nil => cases h; exact nofun
  | cons t ts ih =>
    rw [parseOperands] at h
    cases ho : parseOperand p (trim t) with
    | error e => simp [ho] at h
    | ok o =>
      cases hos : parseOperands p ts with
      | error e => simp [ho, hos] at h
      | ok rest =>
        obtain rfl : o :: rest = os := by simpa [ho, hos] using h
        exact List.forall_mem_cons.mpr ⟨parseOperand_notNamedLikeAValue ho, ih hos⟩

/-- A reference is an operand field of its term (30_encoding.md R76, R83). -/
theorem name_mem_operands {i : Instr} {n : String} (h : n ∈ i.refersTo) : .name n ∈ (encode i).operands := by
  cases i <;> simp_all [Instr.refersTo, encode]

/-- What an instruction line decodes to, it decodes from operand tokens. -/
theorem decodeInstrLine_ok {p : Params} {cs : List Char} {i : Instr} (h : decodeInstrLine p cs = .ok i) :
    ∀ o ∈ (encode i).operands, o.NotNamedLikeAValue p := by
  unfold decodeInstrLine at h
  dsimp only at h
  split at h
  · cases h
  · split at h
    · rw [← eq_encode_of_decode h]
      exact nofun
    · split at h
      · cases h
      · next hos =>
        rw [← eq_encode_of_decode h]
        exact parseOperands_notNamedLikeAValue hos

/-- A line that decodes to a term is a `Label`'s line or an instruction line. -/
theorem decodeChars_some_cases {p : Params} {cs : List Char} {i : Instr} (h : decodeChars p cs = .ok (some i)) :
    (∃ n, i = .label n) ∨ decodeInstrLine p cs = .ok i := by
  have unmap : ∀ {r : Except DecodeError Instr}, r.map some = .ok (some i) → r = .ok i := by
    rintro (_ | _) h <;> simp_all [Except.map]
  unfold decodeChars at h
  split at h
  · cases h
  · split at h
    · dsimp only at h
      split at h
      · cases h; exact .inl ⟨_, rfl⟩
      · cases h
    · split at h
      · cases h
      · exact .inr (unmap h)

/-- No line refers to a name like a register's or an immediate's (30_encoding.md R80). -/
theorem parse_none_of_mem_refersTo {p : Params} {cs : List Char} {i : Instr} {n : String}
    (h : decodeChars p cs = .ok (some i)) (hn : n ∈ i.refersTo) :
    parseReg n.toList = none ∧ parseImm p n.toList = none := by
  rcases decodeChars_some_cases h with ⟨name, rfl⟩ | hinstr
  · exact nomatch hn
  · exact decodeInstrLine_ok hinstr _ (name_mem_operands hn)

/-- An operand that is a value: a register, or an immediate in range. -/
def Operand.IsValue (p : Params) (o : Operand) : Prop :=
  (∃ n, o = .reg n) ∨ ∃ k, o = .imm k ∧ p.immMin ≤ k ∧ k ≤ p.immMax

theorem Operand.IsValue.spellable {p : Params} {o : Operand} (h : o.IsValue p) : o.Spellable p := by
  obtain ⟨n, rfl⟩ | ⟨k, rfl, hk⟩ := h
  · trivial
  · exact hk

/-- The token of a value is a register token or an immediate token. -/
theorem Operand.IsValue.not_parse_none {p : Params} {o : Operand} (h : o.IsValue p) :
    ¬(parseReg o.text = none ∧ parseImm p o.text = none) := by
  obtain ⟨n, rfl⟩ | ⟨k, rfl, hk⟩ := h
  · simp [parseReg_reg_text]
  · simp [parseImm, (parse_int_text k).2, Option.filter, hk]

/-- A `j` line decodes as its one operand says. -/
theorem decodeChars_j {p : Params} {o : Operand} (ho : o.Spellable p) :
    decodeChars p (['j', ' '] ++ o.text) = (decode ⟨0b011#3, [o]⟩).map some := by
  have hos : ∀ x ∈ [o], x.Spellable p := by simpa using ho
  simpa [operandText] using decodeChars_operands (op := ['j']) (tag := 0b011#3) (by decide) (by decide) (by simp) hos

/-- A `bge` or `bne` line decodes as its three operands say. -/
theorem decodeChars_branch {p : Params} {o : Operand} (ho : o.Spellable p) (a b : Nat) :
    decodeChars p (['b', 'g', 'e', ' '] ++ (Operand.reg a).text ++ [',', ' '] ++ (Operand.reg b).text ++ [',', ' '] ++
        o.text) = (decode ⟨0b100#3, [.reg a, .reg b, o]⟩).map some ∧
    decodeChars p (['b', 'n', 'e', ' '] ++ (Operand.reg a).text ++ [',', ' '] ++ (Operand.reg b).text ++ [',', ' '] ++
        o.text) = (decode ⟨0b101#3, [.reg a, .reg b, o]⟩).map some := by
  have hos : ∀ x ∈ [Operand.reg a, .reg b, o], x.Spellable p := by simpa [Operand.Spellable] using ho
  have line : ∀ {op : List Char} {tag : BitVec 3}, isLabelName op = true →
      opcodes.lookup (String.ofList op) = some tag → decodeChars p (op ++ [' '] ++ (Operand.reg a).text ++ [',', ' '] ++
        (Operand.reg b).text ++ [',', ' '] ++ o.text) = (decode ⟨tag, [.reg a, .reg b, o]⟩).map some := by
    intro op tag hop htag
    simpa [operandText, List.intercalate] using decodeChars_operands hop htag (by simp) hos
  exact ⟨line (op := ['b', 'g', 'e']) (by decide) (by decide), line (op := ['b', 'n', 'e']) (by decide) (by decide)⟩

/-- An integer out of range is, as a token, a name that may be referenced (log entry 17). -/
theorem spellable_of_not_in_range {p : Params} {k : Int} (hk : ¬(p.immMin ≤ k ∧ k ≤ p.immMax)) :
    (Operand.name (String.ofList (Operand.imm k).text)).Spellable p := by
  simp only [Operand.Spellable, String.toList_ofList]
  exact ⟨isLabelName_imm_text k, (parse_int_text k).1, by simp [parseImm, (parse_int_text k).2, Option.filter, hk]⟩

/-- A value has the wrong kind where a name belongs (30_encoding.md R78). -/
theorem decode_value_badShape {p : Params} {o : Operand} (h : o.IsValue p) (a b : Nat) :
    decode ⟨0b011#3, [o]⟩ = .error (.badShape 0b011#3) ∧
    decode ⟨0b100#3, [.reg a, .reg b, o]⟩ = .error (.badShape 0b100#3) ∧
    decode ⟨0b101#3, [.reg a, .reg b, o]⟩ = .error (.badShape 0b101#3) := by
  obtain ⟨n, rfl⟩ | ⟨k, rfl, _⟩ := h <;> exact ⟨rfl, rfl, rfl⟩

/-- Settles O49: the token of a value is a label name by its characters but is read as the value, and an integer out of range
is read as a name. -/
theorem registerAndIntegerNamesCannotBeReferenced : Obligations.RegisterAndIntegerNamesCannotBeReferenced := by
  intro p a b
  refine ⟨fun o (ho : o.IsValue p) => ?_, fun k hk => ?_⟩
  · obtain ⟨hbge, hbne⟩ := decodeChars_branch ho.spellable a b
    obtain ⟨hj', hbge', hbne'⟩ := decode_value_badShape ho a b
    refine ⟨decodeChars_label p (isLabelName_text ho.spellable), ?_, ?_, ?_, ?_⟩
    · rw [decodeChars_j ho.spellable, hj']
      rfl
    · rw [hbge, hbge']
      rfl
    · rw [hbne, hbne']
      rfl
    · rintro line i n hline hn rfl
      exact ho.not_parse_none (by simpa using parse_none_of_mem_refersTo hline hn)
  · have hname := spellable_of_not_in_range hk
    have htext : (Operand.name (String.ofList (Operand.imm k).text)).text = (Operand.imm k).text :=
      String.toList_ofList
    have hj := decodeChars_j hname
    obtain ⟨hbge, hbne⟩ := decodeChars_branch hname a b
    rw [htext] at hj hbge hbne
    exact ⟨decodeChars_label p (isLabelName_imm_text k), hj, hbge, hbne⟩

end Sys2Proof
